-- ==== Sys2Proof/Word.lean ====
section
/-!
DEFINITION. The plain value types of the Codeword Unstuffer (CWU): register words, SRAM bytes, host
offsets and bit sequences.
-/

namespace Sys2Proof

/-- A register value or command word: the data width of the CWU is 32 bits (R14). -/
abbrev Word := BitVec 32

/-- One byte of the IN SRAM (R33). -/
abbrev Byte := BitVec 8

/-- A host offset from `BLOCK_BASE`: 17 bits, the 128 KiB aperture 0x00000 to 0x1FFFF (R58, R66). -/
abbrev Offset := BitVec 17

/-- A sequence of buffer bits, lowest index first (R16): the head is bit 0, the leftmost bit. -/
abbrev Bits := List Bool

end Sys2Proof
end

