-- ==== Sys2Proof/Syntax.lean ====
section
/-!
DEFINITION. The seven commands of the CWU as syntax: one constructor per row of the opcode table
(R82), with the fields R81 and R83 to R85 give each.
-/

namespace Sys2Proof

/-- The buffer a READ, LENGTH or BITAT acts on (R83): BUF = 0 is IN, the view; BUF = 1 is OUT, the
append-only buffer. -/
inductive Buf where
  | input
  | output
  deriving DecidableEq, Repr

/-- The bit order of a READ (R84): MODE = 1 is most significant first, MODE = 0 least significant
first. -/
inductive BitOrder where
  | msbf
  | lsbf
  deriving DecidableEq, Repr

/-- The operations that OP names (R82), in the table's order. -/
inductive Op where
  | wrap
  | empty
  | append
  | read
  | length
  | bitat
  | unstuff
  deriving DecidableEq, Repr

/-- A command (R82, R86). A count is a natural number as R91 writes it; that it fits the 6-bit field
CNT is a check of `Instr.wellFormed`. The other operands come from ARG0 and ARG1 when the command
runs (R86). -/
inductive Instr where
  /-- WRAP: make IN a view of the IN SRAM (R102). -/
  | wrap
  /-- EMPTY: make OUT a new, empty append-only buffer (R106). -/
  | empty
  /-- APPEND: add the low `n` bits of ARG0 to OUT (R108). `signExtend` is always false (R111). -/
  | append (n : Nat)
  /-- READ: return `n` bits of a buffer from offset ARG0 in a bit order (R114). -/
  | read (b : Buf) (o : BitOrder) (n : Nat)
  /-- LENGTH: return a buffer's logical length (R120). -/
  | length (b : Buf)
  /-- BITAT: return bit ARG0 of a buffer (R123). -/
  | bitat (b : Buf)
  /-- UNSTUFF: unstuff the `w`-bit words of IN into a fresh OUT (R150). -/
  | unstuff (w : Nat)
  deriving DecidableEq, Repr

end Sys2Proof
end

