-- ==== Sys2Proof/WellFormed.lean ====
section
/-!
DEFINITION. Which commands the command word can carry: a count must fit the 6-bit field CNT (R85,
R91).
-/

namespace Sys2Proof

/-- The number of values of the 6-bit field CNT: it admits 0 to 63 (R85). -/
abbrev cntValues : Nat := 64

/-- A count fits CNT. The assembler rejects every other count (R91). -/
def fitsCnt (n : Nat) : Bool := decide (n < cntValues)

/-- The command has an encoding: its count, where it has one, fits CNT. A count outside its legal
range but below 64 is well formed: running it is a CONFIG error, not an illegal encoding (R85). -/
def Instr.wellFormed : Instr → Bool
  | .wrap => true
  | .empty => true
  | .append n => fitsCnt n
  | .read _ _ n => fitsCnt n
  | .length _ => true
  | .bitat _ => true
  | .unstuff w => fitsCnt w

end Sys2Proof
end

