-- ==== Sys2Proof/Decode.lean ====
section
/-!
DEFINITION. Decoding a command word (R80 to R90) and, from the same tables, encoding a command
(R91). Decoding is total: every word is a command or is rejected by name.
-/

namespace Sys2Proof

/-- Why a word is no command. Both reasons make the word ILLEGAL (R186). -/
inductive DecodeError where
  /-- OP is 0x0 or 0x8 to 0xF (R88). -/
  | reservedOp
  /-- OP is legal but a field that must be zero is not (R87). -/
  | mustBeZero
  deriving DecidableEq, Repr

/-! ## The fields of a command word (R81) -/

/-- OP, bits 3:0. -/
def fieldOp (c : Word) : BitVec 4 := c.extractLsb' 0 4

/-- BUF, bit 4. -/
def fieldBuf (c : Word) : Bool := c.getLsbD 4

/-- MODE, bit 5. -/
def fieldMode (c : Word) : Bool := c.getLsbD 5

/-- CNT, bits 11:6, an unsigned count, neither scaled nor offset (R85). -/
def fieldCnt (c : Word) : Nat := (c.extractLsb' 6 6).toNat

/-! ## The opcode map and the legality masks -/

/-- The operation an OP value names, or nothing for a reserved value (R82, R88). -/
def opOfNibble (n : BitVec 4) : Option Op :=
  match n.toNat with
  | 1 => some .wrap
  | 2 => some .empty
  | 3 => some .append
  | 4 => some .read
  | 5 => some .length
  | 6 => some .bitat
  | 7 => some .unstuff
  | _ => none

/-- The mask of an operation's row in R87: the bits that are fixed. -/
def opMask : Op → Word
  | .wrap => 0xFFFFFFFF#32
  | .empty => 0xFFFFFFFF#32
  | .append => 0xFFFFF03F#32
  | .read => 0xFFFFF00F#32
  | .length => 0xFFFFFFEF#32
  | .bitat => 0xFFFFFFEF#32
  | .unstuff => 0xFFFFF03F#32

/-- The match of an operation's row in R87: the values of the fixed bits. -/
def opMatch : Op → Word
  | .wrap => 0x00000001#32
  | .empty => 0x00000002#32
  | .append => 0x00000003#32
  | .read => 0x00000004#32
  | .length => 0x00000005#32
  | .bitat => 0x00000006#32
  | .unstuff => 0x00000007#32

/-- The buffer BUF selects (R83). -/
def bufOfBit (b : Bool) : Buf := if b then .output else .input

/-- The bit order a READ's MODE selects (R84). -/
def orderOfBit (m : Bool) : BitOrder := if m then .msbf else .lsbf

/-- The command an operation and its fields make (R86). -/
def instrOfFields (op : Op) (buf mode : Bool) (cnt : Nat) : Instr :=
  match op with
  | .wrap => .wrap
  | .empty => .empty
  | .append => .append cnt
  | .read => .read (bufOfBit buf) (orderOfBit mode) cnt
  | .length => .length (bufOfBit buf)
  | .bitat => .bitat (bufOfBit buf)
  | .unstuff => .unstuff cnt

/-- Decoding (R90): a reserved OP is rejected first, then a word that fails its row's mask and match;
every other word is a command. -/
def decode (c : Word) : Except DecodeError Instr :=
  match opOfNibble (fieldOp c) with
  | none => .error .reservedOp
  | some op =>
    if c &&& opMask op = opMatch op then
      .ok (instrOfFields op (fieldBuf c) (fieldMode c) (fieldCnt c))
    else .error .mustBeZero

/-- A bit-numbered table word, given to the decoder: bit 0 is the least significant bit of the one
32-bit command word, and bits at `nbits` and above are zero. -/
def decodeTableWord (nbits w : Nat) : Option Instr :=
  match decode (BitVec.ofNat 32 (w % 2 ^ nbits)) with
  | .ok i => some i
  | .error _ => none

/-! ## Encoding (R91) -/

/-- The operation of a command. -/
def opOf : Instr → Op
  | .wrap => .wrap
  | .empty => .empty
  | .append _ => .append
  | .read _ _ _ => .read
  | .length _ => .length
  | .bitat _ => .bitat
  | .unstuff _ => .unstuff

/-- BUF of a buffer, in its place in the word (R91). -/
def bufField : Buf → Word
  | .input => 0x00000000#32
  | .output => 0x00000010#32

/-- MODE of a READ's bit order, in its place in the word (R91). -/
def modeField : BitOrder → Word
  | .msbf => 0x00000020#32
  | .lsbf => 0x00000000#32

/-- A count in CNT's place in the word (R91). -/
def cntField (n : Nat) : Word := BitVec.ofNat 32 n <<< 6

/-- The command word of a well-formed command (R91). A count that does not fit CNT has no word; what
this function gives for one means nothing. -/
def encode : Instr → Word
  | .wrap => 0x00000001#32
  | .empty => 0x00000002#32
  | .append n => 0x00000003#32 ||| cntField n
  | .read b o n => 0x00000004#32 ||| bufField b ||| modeField o ||| cntField n
  | .length b => 0x00000005#32 ||| bufField b
  | .bitat b => 0x00000006#32 ||| bufField b
  | .unstuff w => 0x00000007#32 ||| cntField w

/-! ## Every constructor's decoding, by words written out from R81 and R91

Each word is written as RSV (20 bits), CNT (6), MODE (1), BUF (1), OP (4). -/

theorem decode_wrap_word :
    decode 0b00000000000000000000_000000_0_0_0001#32 = .ok .wrap := by decide

theorem decode_empty_word :
    decode 0b00000000000000000000_000000_0_0_0010#32 = .ok .empty := by decide

theorem decode_append_word :
    decode 0b00000000000000000000_000011_0_0_0011#32 = .ok (.append 3) := by decide

theorem decode_read_word :
    decode 0b00000000000000000000_001010_1_1_0100#32 = .ok (.read .output .msbf 10) := by decide

theorem decode_read_lsbf_word :
    decode 0b00000000000000000000_100000_0_0_0100#32 = .ok (.read .input .lsbf 32) := by decide

theorem decode_length_word :
    decode 0b00000000000000000000_000000_0_1_0101#32 = .ok (.length .output) := by decide

theorem decode_bitat_word :
    decode 0b00000000000000000000_000000_0_1_0110#32 = .ok (.bitat .output) := by decide

theorem decode_unstuff_word :
    decode 0b00000000000000000000_001100_0_0_0111#32 = .ok (.unstuff 12) := by decide

end Sys2Proof
end

