-- ==== Sys2Proof/Config.lean ====
section
/-!
DEFINITION. What one CWU fixes and the spec leaves OPEN: IN_BYTES (R12), OUT_BITS (R13), BLOCK_BASE
(R15) and the draw `in_sram_init` (R36). They are free values: constants with no body, so no proof can
rest on one of their values. Their types hold exactly the bounds the spec gives, so every legal choice
is one of them and no other is.

The state carries them as plain data (`Params`), so a statement over all states holds for every
choice of the parameters, and a state with parameters written out (16 and 128, as in the spec's test
vectors) can be run. Marked DESIGN CHOICE, assumption log 1 (safe).
-/

namespace Sys2Proof

/-- The parameters of one CWU. -/
structure Params where
  /-- IN_BYTES, the size of the IN SRAM in bytes (R12). -/
  inBytes : Nat
  /-- OUT_BITS, the capacity of the OUT SRAM in bits (R13, R107). -/
  outBits : Nat
  /-- BLOCK_BASE, where the platform places the host aperture (R15). -/
  blockBase : Nat
  /-- The draw `in_sram_init`: what the IN SRAM holds after reset, byte 0 first (R36). -/
  sramInit : List Byte
  deriving DecidableEq, Repr

namespace Config

/-- IN_BYTES - 1, free over exactly 1 <= IN_BYTES <= 65536 (R12). -/
opaque inBytesLessOne : Fin 65536

/-- IN_BYTES (R12). -/
def inBytes : Nat := inBytesLessOne.val + 1

/-- OUT_BITS - 8 * IN_BYTES, free over exactly 8 * IN_BYTES <= OUT_BITS <= 2^24 (R13). -/
opaque outBitsSpare : Fin (2 ^ 24 - 8 * inBytes + 1)

/-- OUT_BITS (R13). -/
def outBits : Nat := 8 * inBytes + outBitsSpare.val

/-- BLOCK_BASE, free: the platform's (R15). -/
opaque blockBase : Nat

/-- The draw `in_sram_init`, free: one byte for each byte of the IN SRAM (R36). -/
opaque inSramInit : Vector Byte inBytes

/-- The parameters of this CWU. -/
def params : Params :=
  { inBytes := inBytes
    outBits := outBits
    blockBase := blockBase
    sramInit := inSramInit.toList }

end Config

end Sys2Proof
end

