-- ==== Sys2Proof/Machine/State.lean ====
section
/-!
DEFINITION. The state of the CWU (R22 to R38), the host accesses that drive it (R60, R66), the
responses the host gets (R220), and the state right after reset (R210).
-/

namespace Sys2Proof.Machine

open Sys2Proof

/-- The errors a command can end in (R181). They transfer no control: an error is a next state with its
code in STATUS (R180). -/
inductive ErrorKind where
  /-- A count field out of its legal range (R182). -/
  | config
  /-- A bit range past a buffer's bounds (R184). -/
  | range
  /-- An unstuffed 0 or all-ones word inside the message region (R185). -/
  | reservedWord
  /-- The word written to CMD is no command (R186). -/
  | illegal
  deriving DecidableEq, Repr

/-- One access on the host bus: offset from BLOCK_BASE, width in bytes, direction, write data (R66).
Every width may be asked for (R221); a width other than the region's gets a bus ERROR (R65). -/
inductive HostAccess where
  /-- `MemRead(offset, width)` (R18). -/
  | read (offset : Offset) (width : Nat)
  /-- `MemWrite(offset, width, data)` (R18). The data of an 8-bit write are the low 8 bits. -/
  | write (offset : Offset) (width : Nat) (data : Word)
  deriving DecidableEq, Repr

/-- What the outside world can do to the CWU (R66): an access on the host bus, or the reset input. -/
inductive HostEvent where
  /-- The host issues an access. -/
  | access (a : HostAccess)
  /-- The reset input is asserted. `abandoned` are the accesses that were running or held behind a
  running command: none of them is performed (R211). -/
  | reset (abandoned : List HostAccess)
  deriving DecidableEq, Repr

/-- The response to one access (R66, R220). -/
inductive Response where
  /-- OK with the 32-bit value of a register. -/
  | word (v : Word)
  /-- OK with a byte of the IN window. -/
  | byte (v : Byte)
  /-- OK, to a write. -/
  | written
  /-- Bus ERROR: the access is not supported and had no effect (R65). This is the record of the host
  fault R65 names; the machine goes on with the host's next access (R193, R220). -/
  | busError
  deriving DecidableEq, Repr

/-- The IN SRAM's written contents: (address, byte) cells, addresses strictly rising, none listed that
holds what an unlisted address reads as (`Memory.wf`). -/
abbrev Memory := List Host.Cell

/-- The state of one CWU. -/
structure State where
  /-- ARG0, the first operand (R24). -/
  arg0 : Word
  /-- ARG1, the second operand (R25). -/
  arg1 : Word
  /-- RESULT (R26). -/
  result : Word
  /-- STATUS.CODE, 3 bits: the outcome of the last command (R27, R28). -/
  code : BitVec 3
  /-- STATUS.ERR, the sticky error bit (R27, R29). -/
  err : Bool
  /-- in_len, the logical length of the IN buffer in bits (R32). -/
  inLen : Nat
  /-- The IN SRAM's bytes, as far as they differ from the draw `params.sramInit` (R33, R36). -/
  inMem : Memory
  /-- The OUT buffer: OutBit(0) to OutBit(out_len - 1). Its length is out_len (R34, R37, R53). -/
  out : Bits
  /-- The parameters of this CWU (R12, R13, R15) and its draw (R36). No step changes them. The model's
  own field: it carries the values of `Config` (assumption log 1). -/
  params : Params
  /-- What the outside world does from now on, oldest first (R60, R66). The model's own field: the host
  is outside the CWU (assumption log 2). -/
  inputs : List HostEvent
  /-- The responses of this run, one per access, oldest first (R220). The model's own field: the host
  holds them, not the CWU (assumption log 2). -/
  responses : List Response
  deriving DecidableEq, Repr

/-- The faults of the machine: none. No rule of the spec stops the CWU (R180, R221: "no host action
leaves the CWU undefined or stuck"): a command error is a next state (R183) and so is a bus ERROR
(R65, `Response.busError`). With no constructor nothing can raise one; safe (assumption log 3). -/
inductive Fault where
  deriving DecidableEq, Repr

/-- The refusals of the machine. -/
inductive Refusal where
  /-- Raised only by an arm of `exec` whose instruction has no meaning in the model; no arm raises it,
  since all seven commands have their meaning. Safe: the machine stops. -/
  | notModelled (mnemonic : String)
  deriving DecidableEq, Repr

/-- The state right after reset (R210): every register and both lengths zero, the IN SRAM holding its
draw (R36), and nothing yet asked of the CWU. -/
def State.reset : State :=
  { arg0 := 0#32
    arg1 := 0#32
    result := 0#32
    code := 0#3
    err := false
    inLen := 0
    inMem := []
    out := []
    params := Config.params
    inputs := []
    responses := [] }

end Sys2Proof.Machine
end

