-- ==== Sys2Proof/Machine/Flags.lean ====
section
/-!
DEFINITION. STATUS, the only flags of the CWU (R27 to R30, R38): the code of each error, the word a host
reads, and what a command or a host write does to it.
-/

namespace Sys2Proof.Machine

open Sys2Proof

/-- STATUS.CODE of success (R28). -/
abbrev codeOk : BitVec 3 := 0#3

/-- STATUS.CODE of an error (R28, R181). -/
def ErrorKind.code : ErrorKind → BitVec 3
  | .config => 1#3
  | .range => 2#3
  | .reservedWord => 3#3
  | .illegal => 4#3

/-- STATUS.CODE and STATUS.ERR in their places: CODE in bits 2:0, ERR in bit 8, every other bit 0 (R27). -/
def statusWord (code : BitVec 3) (err : Bool) : Word :=
  (BitVec.ofBool err).setWidth 32 <<< 8 ||| code.setWidth 32

/-- The value a host reads from STATUS (R27). -/
def State.status (s : State) : Word := statusWord s.code s.err

/-- STATUS.ERR after a command that ends with `code`: an error sets it, a success leaves it (R29). -/
def errAfter (err : Bool) (code : BitVec 3) : Bool := err || code != codeOk

/-- STATUS.ERR after a host write of `v` to STATUS: bit 8 = 1 clears it (R29). No other bit of the write
has an effect (R30). -/
def errAfterWrite (err : Bool) (v : Word) : Bool := err && !v.getLsbD 8

end Sys2Proof.Machine
end

