-- ==== Sys2Proof/Machine/Ops.lean ====
section
/-!
DEFINITION. The named operations over registers, buffers and the IN SRAM, and the three ways a state
comes about as a whole: a command completes (R100), a command ends in an error (R183), reset (R210).
-/

namespace Sys2Proof.Machine

open Sys2Proof

/-! ## Registers and buffers -/

/-- Write ARG0 (R24). -/
def State.setArg0 (s : State) (v : Word) : State := { s with arg0 := v }

/-- Write ARG1 (R25). -/
def State.setArg1 (s : State) (v : Word) : State := { s with arg1 := v }

/-- A host write to STATUS (R29, R30). -/
def State.writeStatus (s : State) (v : Word) : State := { s with err := errAfterWrite s.err v }

/-- Set in_len (R32). -/
def State.setInLen (s : State) (l : Nat) : State := { s with inLen := l }

/-- Make OUT hold exactly a bit sequence; out_len becomes its length (R34). -/
def State.setOut (s : State) (bits : Bits) : State := { s with out := bits }

/-- out_len, the logical length of OUT in bits (R34). -/
abbrev State.outLen (s : State) : Nat := s.out.length

/-- Append a bit sequence to OUT: its first element goes to index out_len and out_len grows by its
length; bits already in OUT are unchanged (R52). -/
def State.appendOut (s : State) (bits : Bits) : State := { s with out := s.out ++ bits }

/-! ## The IN SRAM -/

/-- What an unlisted address reads as: the byte of the draw `in_sram_init` (R36). -/
def unlisted (p : Params) (a : Nat) : Byte := p.sramInit.getD a 0#8

/-- The byte listed at an address. -/
def Memory.find? : Memory → Nat → Option Byte
  | [], _ => none
  | c :: m, a => if c.1 = a then some c.2 else Memory.find? m a

/-- The byte an address holds: the listed one, or the draw's. -/
def Memory.read (p : Params) (m : Memory) (a : Nat) : Byte :=
  (m.find? a).getD (unlisted p a)

/-- List a byte at an address, keeping the addresses rising. -/
def Memory.insert (a : Nat) (v : Byte) : Memory → Memory
  | [] => [(a, v)]
  | c :: m =>
    if a < c.1 then (a, v) :: c :: m
    else if a = c.1 then (a, v) :: m
    else c :: Memory.insert a v m

/-- Unlist an address. -/
def Memory.erase (a : Nat) : Memory → Memory
  | [] => []
  | c :: m => if c.1 = a then m else c :: Memory.erase a m

/-- Store a byte. A byte equal to what the unlisted address reads as is not listed, so equal memories are
equal lists. -/
def Memory.write (p : Params) (m : Memory) (a : Nat) (v : Byte) : Memory :=
  if v = unlisted p a then Memory.erase a m else Memory.insert a v m

/-- The canonical form: addresses strictly rising and below IN_BYTES, and no cell that holds what its
address reads as unlisted. -/
abbrev Memory.wf (p : Params) (m : Memory) : Prop :=
  m.Pairwise (fun c d => c.1 < d.1) ∧ ∀ c ∈ m, c.1 < p.inBytes ∧ c.2 ≠ unlisted p c.1

/-- `InByte(a)` (R18, R33). An address the IN SRAM does not back reads 0, as the host sees it in the window
(R62); no command reads one while in_len is within the SRAM (R35). -/
def State.inByte (s : State) (a : Nat) : Byte :=
  if a < s.params.inBytes then Memory.read s.params s.inMem a else 0#8

/-- A host write of a window byte (R61, R62): a backed one stores the byte and drops the view, an unbacked
one is ignored. -/
def State.writeWindow (s : State) (a : Nat) (v : Byte) : State :=
  if a < s.params.inBytes then
    { s with inMem := Memory.write s.params s.inMem a v, inLen := 0 }
  else s

/-! ## How a command ends (R100, R183) and reset (R210) -/

/-- `complete(r)`: RESULT gets the value, CODE is OK, ERR is unchanged (R100). -/
def State.complete (s : State) (r : Nat) : State :=
  { s with result := BitVec.ofNat 32 r, code := codeOk, err := errAfter s.err codeOk }

/-- `raise E`, the one way a command ends in an error (R183): CODE gets the error's code, ERR is set and
RESULT is 0. No control is transferred (R180, R191). -/
def State.raise (s : State) (e : ErrorKind) : State :=
  { s with result := 0#32, code := e.code, err := errAfter s.err e.code }

/-- The reset input (R210, R211): every register and both lengths become 0; the IN SRAM is kept. It starts
a new run, so the responses of the old one are dropped (R220). -/
def State.assertReset (s : State) : State :=
  { State.reset with params := s.params, inMem := s.inMem, inputs := s.inputs }

/-! ## The host side of the port -/

/-- Record the response to an access, after those before it (R220). -/
def State.respond (s : State) (r : Response) : State := { s with responses := s.responses ++ [r] }

/-- The host's events that are still to come. -/
def State.setInputs (s : State) (es : List HostEvent) : State := { s with inputs := es }

end Sys2Proof.Machine
end

