-- ==== Sys2Proof/Machine/Operands.lean ====
section
/-!
DEFINITION. The operand forms: bit sequences of a value (R18), the bits of the two buffers (R50, R34),
a range of bits as a number in either order (R54), and the register operands (R86).
-/

namespace Sys2Proof.Machine

open Sys2Proof

/-- `seq_n(v)`: the low n bits of v, most significant first (R18). -/
def seqBits (n v : Nat) : Bits := (List.range n).map fun j => v.testBit (n - 1 - j)

/-- `InBit(k)`: bit 7 - (k mod 8) of byte k div 8, so the most significant bit of each byte is first
(R50). -/
def State.inBit (s : State) (k : Nat) : Bool := (s.inByte (k / 8)).getLsbD (7 - k % 8)

/-- `OutBit(k)` for k < out_len (R34). Every read is bounded by out_len (R37), so what is given above it
never reaches a result. -/
def State.outBit (s : State) (k : Nat) : Bool := s.out.getD k false

/-- The bit of the buffer BUF selects (R83, R114). -/
def State.bit (s : State) : Buf → Nat → Bool
  | .input => s.inBit
  | .output => s.outBit

/-- The logical length of the buffer BUF selects (R83, R120). -/
def State.len (s : State) : Buf → Nat
  | .input => s.inLen
  | .output => s.outLen

/-- The weight of the j-th of n bits: most significant first, or least significant first (R54). -/
def bitWeight (n j : Nat) : BitOrder → Nat
  | .msbf => 2 ^ (n - 1 - j)
  | .lsbf => 2 ^ j

/-- `ReadBits(B, o, n, order)`: the sum over j in 0 .. n-1 of B(o + j) times the bit's weight (R54). -/
def readBits (bit : Nat → Bool) (o n : Nat) (order : BitOrder) : Nat :=
  ((List.range n).map fun j => (bit (o + j)).toNat * bitWeight n j order).sum

/-- ARG0 as a command takes it: unsigned, zero-extended (R86). -/
abbrev State.operand0 (s : State) : Nat := s.arg0.toNat

/-- ARG1 as a command takes it: unsigned, zero-extended (R86). -/
abbrev State.operand1 (s : State) : Nat := s.arg1.toNat

/-- The most bits one READ, APPEND or codeword moves: 32 (R14, R57). -/
abbrev maxMove : Nat := 32

end Sys2Proof.Machine
end

