-- ==== Sys2Proof/Machine/BitBuffer.lean ====
section
/-!
DEFINITION. The six BitBuffer commands: WRAP, EMPTY, APPEND, READ, LENGTH and BITAT (R100 to R129). Every
check comes before any effect (R101), CONFIG before RANGE (R187). Sums and products are exact (R17).
-/

namespace Sys2Proof.Machine

open Sys2Proof

/-- WRAP (R102 to R105). ARG0 is bitLength, ARG1 byteCount. -/
def execWrap (s : State) : Host.Outcome State Fault Refusal :=
  let bitLength := s.operand0
  let byteCount := s.operand1
  if s.params.inBytes < byteCount then .next (s.raise .range)
  else if 8 * byteCount < bitLength then .next (s.raise .range)
  else .next ((s.setInLen bitLength).complete bitLength)

/-- EMPTY (R106). -/
def execEmpty (s : State) : Host.Outcome State Fault Refusal :=
  .next ((s.setOut []).complete 0)

/-- APPEND (R108 to R113). ARG0 is the value. RESULT is the new out_len. -/
def execAppend (n : Nat) (s : State) : Host.Outcome State Fault Refusal :=
  if maxMove < n then .next (s.raise .config)
  else if s.params.outBits < s.outLen + n then .next (s.raise .range)
  else .next ((s.appendOut (seqBits n s.operand0)).complete (s.outLen + n))

/-- READ (R114 to R119). ARG0 is bitOffset. -/
def execRead (b : Buf) (o : BitOrder) (n : Nat) (s : State) : Host.Outcome State Fault Refusal :=
  if maxMove < n then .next (s.raise .config)
  else if s.len b < s.operand0 + n then .next (s.raise .range)
  else .next (s.complete (readBits (s.bit b) s.operand0 n o))

/-- LENGTH (R120 to R122). -/
def execLength (b : Buf) (s : State) : Host.Outcome State Fault Refusal :=
  .next (s.complete (s.len b))

/-- BITAT (R123 to R126). ARG0 is the index. -/
def execBitat (b : Buf) (s : State) : Host.Outcome State Fault Refusal :=
  if s.len b ≤ s.operand0 then .next (s.raise .range)
  else .next (s.complete (s.bit b s.operand0).toNat)

end Sys2Proof.Machine
end

