-- ==== Sys2Proof/Machine/Unstuff.lean ====
section
/-!
DEFINITION. UNSTUFF (R150 to R168): the word classes, the word loop, and the command.
-/

namespace Sys2Proof.Machine

open Sys2Proof

/-- `ones`, the all-one value of a w-bit word (R11, R154). -/
def allOnes (w : Nat) : Nat := 2 ^ w - 1

/-- `onesMinusOne`, the stuffed value next to the all-one value (R11, R154). -/
def onesMinusOne (w : Nat) : Nat := allOnes w - 1

/-- `STUFF_LOW`, the stuffed value next to the all-zero value (R11). -/
abbrev stuffLow : Nat := 1

/-- What UNSTUFF makes of a word (R155, R158, R159). -/
inductive WordClass where
  /-- It carries a stuffing bit (R155). -/
  | stuffed
  /-- An unstuffed 0 or all-ones word in the message region (R159). -/
  | reserved
  /-- Any other word (R158). -/
  | normal
  deriving DecidableEq, Repr

/-- The class of the w-bit word `value` at index i with m message words. Stuffing is tested first, at every
index (R155, R157). -/
def classify (w m i value : Nat) : WordClass :=
  if value = stuffLow ∨ value = onesMinusOne w then .stuffed
  else if i < m ∧ (value = 0 ∨ value = allOnes w) then .reserved
  else .normal

/-- The bits of words `values` at indices i, i+1, ... in ascending order (R160), or nothing if one of them is
a reserved word: the first such word ends the loop (R159, R188). -/
def unstuffWords (w m : Nat) : Nat → List Nat → Option Bits
  | _, [] => some []
  | i, value :: values =>
    match classify w m i value with
    | .stuffed => (unstuffWords w m (i + 1) values).map (seqBits (w - 1) (value / 2) ++ ·)
    | .reserved => none
    | .normal => (unstuffWords w m (i + 1) values).map (seqBits w value ++ ·)

/-- numWords: the tail that does not fill a word is not counted (R10, R152). -/
abbrev numWords (inLen w : Nat) : Nat := inLen / w

/-- value_i: the i-th w-bit word of IN, most significant bit first (R153). -/
def State.wordAt (s : State) (w i : Nat) : Nat := readBits s.inBit (i * w) w .msbf

/-- The words of IN that UNSTUFF processes, in index order (R152, R153). -/
def State.words (s : State) (w : Nat) : List Nat :=
  (List.range (numWords s.inLen w)).map fun i => s.wordAt w i

/-- UNSTUFF (R150). ARG0 is messageWordCount, of which any value is legal (R166). On a reserved word OUT
becomes empty before the error (R163); on success OUT is exactly the unstuffed bits (R161). -/
def execUnstuff (w : Nat) (s : State) : Host.Outcome State Fault Refusal :=
  if w < 2 ∨ maxMove < w then .next (s.raise .config)
  else
    match unstuffWords w s.operand0 0 (s.words w) with
    | none => .next ((s.setOut []).raise .reservedWord)
    | some bits => .next ((s.setOut bits).complete bits.length)

end Sys2Proof.Machine
end

