-- ==== Sys2Proof/Machine/Dispatch.lean ====
section
/-!
DEFINITION. The dispatch from a command to its meaning, one arm per constructor of `Instr` (R82, R90).
-/

namespace Sys2Proof.Machine

open Sys2Proof

/-- Perform the rule of a command (R82, R90). -/
def exec (i : Instr) (s : State) : Host.Outcome State Fault Refusal :=
  match i with
  | .wrap => Sys2Proof.Machine.execWrap s
  | .empty => Sys2Proof.Machine.execEmpty s
  | .append n => Sys2Proof.Machine.execAppend n s
  | .read b o n => Sys2Proof.Machine.execRead b o n s
  | .length b => Sys2Proof.Machine.execLength b s
  | .bitat b => Sys2Proof.Machine.execBitat b s
  | .unstuff w => Sys2Proof.Machine.execUnstuff w s

end Sys2Proof.Machine
end

