-- ==== Sys2Proof/Machine/HostPort.lean ====
section
/-!
DEFINITION. The host bus target (R58 to R67): what each access of the host does and answers, the CMD write
among them (R90).
-/

namespace Sys2Proof.Machine

open Sys2Proof

/-! ## The aperture (R58) and the register map (R22) -/

/-- The size of the host aperture, 128 KiB (R15, R58). -/
abbrev apertureBytes : Nat := 0x20000

/-- The offset a platform address reaches in the aperture, or nothing: an address outside the aperture is
not decoded by the CWU and belongs to the platform (R15, R58). -/
def offsetOf (p : Params) (address : Nat) : Option Offset :=
  if p.blockBase ≤ address ∧ address < p.blockBase + apertureBytes then
    some (BitVec.ofNat 17 (address - p.blockBase))
  else none

/-- The registers of the register block (R22). -/
inductive Reg where
  | cmd
  | arg0
  | arg1
  | result
  | status
  /-- An offset 0x00014 to 0x0FFFC (R31). -/
  | reserved
  deriving DecidableEq, Repr

/-- The register at an offset of the register block (R22). -/
def regAt (offset : Nat) : Reg :=
  match offset with
  | 0x00000 => .cmd
  | 0x00004 => .arg0
  | 0x00008 => .arg1
  | 0x0000C => .result
  | 0x00010 => .status
  | _ => .reserved

/-- What an access reaches. -/
inductive Target where
  /-- A register, 32 bits wide and 4-byte aligned. -/
  | reg (r : Reg)
  /-- Byte `a` of the IN window, backed or not. -/
  | window (a : Nat)
  /-- Nothing: the access gets a bus ERROR (R65). -/
  | unsupported
  deriving DecidableEq, Repr

/-- What an access of a width at an offset reaches (R58, R65): a register for an aligned 32-bit access to the
register block, byte a for an 8-bit access to the window at 0x10000 + a, and nothing otherwise. The index a is the
low 16 bits of the 17-bit offset. -/
def targetOf (offset : Offset) (width : Nat) : Target :=
  if offset.toNat < 0x10000 then
    if width = 4 ∧ offset.toNat % 4 = 0 then .reg (regAt offset.toNat) else .unsupported
  else
    if width = 1 then .window (offset.toNat % 0x10000) else .unsupported

/-! ## Reads: none has a side effect (R63) -/

/-- The value a host reads from a register (R22 to R31): CMD and reserved offsets read 0. -/
def State.readReg (s : State) : Reg → Word
  | .cmd => 0#32
  | .arg0 => s.arg0
  | .arg1 => s.arg1
  | .result => s.result
  | .status => s.status
  | .reserved => 0#32

/-- The response to a read (R59, R62, R65). An unbacked window byte reads 0, which `State.inByte` gives. -/
def State.readAt (s : State) : Target → Response
  | .reg r => .word (s.readReg r)
  | .window a => .byte (s.inByte a)
  | .unsupported => .busError

/-! ## Writes -/

/-- A CMD write (R23, R90): the word's command is performed; a word that is no command raises ILLEGAL and
reads no operand (R186). -/
def runCommand (c : Word) (s : State) : Host.Outcome State Fault Refusal :=
  match decode c with
  | .ok i => exec i s
  | .error _ => .next (s.raise .illegal)

/-- A host write to a register (R22 to R31): RESULT and reserved offsets ignore it. -/
def writeReg (r : Reg) (v : Word) (s : State) : Host.Outcome State Fault Refusal :=
  match r with
  | .cmd => runCommand v s
  | .arg0 => .next (s.setArg0 v)
  | .arg1 => .next (s.setArg1 v)
  | .result => .next s
  | .status => .next (s.writeStatus v)
  | .reserved => .next s

/-- A next state with a response recorded; a stop is passed on. -/
def answer (r : Response) (o : Host.Outcome State Fault Refusal) : Host.Outcome State Fault Refusal :=
  match o with
  | .next s => .next (s.respond r)
  | .fault f => .fault f
  | .refused f => .refused f

/-- A host write at what the access reaches (R58 to R65). -/
def writeAt (t : Target) (v : Word) (s : State) : Host.Outcome State Fault Refusal :=
  match t with
  | .reg r => answer .written (writeReg r v s)
  | .window a => .next ((s.writeWindow a (v.setWidth 8)).respond .written)
  | .unsupported => .next (s.respond .busError)

/-- One host access, performed whole before the next (R64, R67). -/
def performAccess (a : HostAccess) (s : State) : Host.Outcome State Fault Refusal :=
  match a with
  | .read offset width => .next (s.respond (s.readAt (targetOf offset width)))
  | .write offset width v => writeAt (targetOf offset width) v s

/-- One event from outside (R66): an access, or reset, which abandons the accesses running or held (R211). -/
def performEvent (e : HostEvent) (s : State) : Host.Outcome State Fault Refusal :=
  match e with
  | .access a => performAccess a s
  | .reset _ => .next s.assertReset

/-- The CMD write that runs a table word: the word, bits at `nbits` and above zero, written 32 bits wide at
offset 0 (R23, R80). -/
def cmdWriteOf (nbits w : Nat) : HostEvent :=
  .access (.write 0x00000#17 4 (BitVec.ofNat 32 (w % 2 ^ nbits)))

end Sys2Proof.Machine
end

