-- ==== Sys2Proof/Machine/Step.lean ====
section
/-!
DEFINITION. One step: the next thing the outside world does to the CWU, performed whole (R60, R64, R219).
-/

namespace Sys2Proof.Machine

open Sys2Proof

/-- One step. With an event to come, it is taken and performed. With none, nothing happens: between accesses
the CWU does nothing and all its state persists (R200, R220). -/
def step (s : State) : Host.Outcome State Fault Refusal :=
  match s.inputs with
  | [] => .next s
  | e :: es => performEvent e (s.setInputs es)

/-- The state with a command placed where the next step takes it: the CWU fetches nothing (R21, R70), so
the command is the host's next access, a write of the word to CMD, before any access already to come. -/
def State.withFetchWord (s : State) (nbits w : Nat) : State :=
  s.setInputs (cmdWriteOf nbits w :: s.inputs)

end Sys2Proof.Machine
end

