-- ==== Sys2Proof/Machine/Assembler.lean ====
section
/-!
DEFINITION. How host programs are written down: the command and host access lines of R91, the
pseudo-instructions of R92, and the boot sequence of R213. They assemble to host accesses; the machine
itself never sees them (D22).
-/

namespace Sys2Proof.Machine

open Sys2Proof

/-- One line of a host program (R91). -/
inductive HostLine where
  /-- A command: `wrap`, `empty`, `append n`, `read b, o, n`, `length b`, `bitat b`, `unstuff w`. -/
  | command (i : Instr)
  /-- `arg0 = X`. -/
  | setArg0 (x : Word)
  /-- `arg1 = X`. -/
  | setArg1 (x : Word)
  /-- `in[a] = v`. -/
  | setIn (a : Nat) (v : Byte)
  /-- `x = in[a]`. -/
  | getIn (a : Nat)
  /-- `x = result`. -/
  | getResult
  /-- `x = status`. -/
  | getStatus
  /-- `clear_err`. -/
  | clearErr
  /-- `cmd X`, a raw word. -/
  | cmd (x : Word)
  deriving DecidableEq, Repr

/-- The word a command line assembles to. A count above 63 is rejected, since it does not fit CNT (R91). -/
def assembleCommand (i : Instr) : Option Word := if i.wellFormed then some (encode i) else none

/-- The offset of byte a of the IN window (R58). An index past the window names no byte of it. -/
def windowOffset (a : Nat) : Option Offset :=
  if 0x10000 + a < apertureBytes then some (BitVec.ofNat 17 (0x10000 + a)) else none

/-- The host access a line stands for (R91). -/
def assembleLine : HostLine → Option HostAccess
  | .command i => (assembleCommand i).map fun c => .write 0x00000#17 4 c
  | .setArg0 x => some (.write 0x00004#17 4 x)
  | .setArg1 x => some (.write 0x00008#17 4 x)
  | .setIn a v => (windowOffset a).map fun o => .write o 1 (v.setWidth 32)
  | .getIn a => (windowOffset a).map fun o => .read o 1
  | .getResult => some (.read 0x0000C#17 4)
  | .getStatus => some (.read 0x00010#17 4)
  | .clearErr => some (.write 0x00010#17 4 0x00000100#32)
  | .cmd x => some (.write 0x00000#17 4 x)

/-- A pseudo-instruction (R92). -/
inductive Pseudo where
  /-- `wrap# L, B`. -/
  | wrap (bitLength byteCount : Word)
  /-- `append# v, n`. -/
  | append (v : Word) (n : Nat)
  /-- `read# b, o, off, n`. -/
  | read (b : Buf) (o : BitOrder) (off : Word) (n : Nat)
  /-- `bitat# b, k`. -/
  | bitat (b : Buf) (k : Word)
  /-- `unstuff# w, m`. -/
  | unstuff (w : Nat) (m : Word)
  /-- `load_in a, v0, v1, ..., vk`. -/
  | loadIn (a : Nat) (vs : List Byte)
  deriving DecidableEq, Repr

/-- Window writes of bytes at a, a+1, ... (R92). -/
def loadInLines : Nat → List Byte → List HostLine
  | _, [] => []
  | a, v :: vs => .setIn a v :: loadInLines (a + 1) vs

/-- The lines a pseudo-instruction expands to, in order (R92). -/
def expandPseudo : Pseudo → List HostLine
  | .wrap l b => [.setArg0 l, .setArg1 b, .command .wrap]
  | .append v n => [.setArg0 v, .command (.append n)]
  | .read b o off n => [.setArg0 off, .command (.read b o n)]
  | .bitat b k => [.setArg0 k, .command (.bitat b)]
  | .unstuff w m => [.setArg0 m, .command (.unstuff w)]
  | .loadIn a vs => loadInLines a vs

/-- Steps 1 to 3 of the boot sequence (R213): load the symbol's bytes, WRAP them, UNSTUFF them. -/
def bootLines (bytes : List Byte) (bitLength : Word) (w : Nat) (m : Word) : List HostLine :=
  expandPseudo (.loadIn 0 bytes)
    ++ expandPseudo (.wrap bitLength (BitVec.ofNat 32 bytes.length))
    ++ expandPseudo (.unstuff w m)

/-! ## Spelling (R91): `in` and `out` for BUF, `msbf` and `lsbf` for a READ's MODE -/

/-- How a line spells BUF. -/
def bufText : Buf → String
  | .input => "in"
  | .output => "out"

/-- How a line spells a READ's MODE. -/
def orderText : BitOrder → String
  | .msbf => "msbf"
  | .lsbf => "lsbf"

/-- A command as R91 spells it, counts in decimal. -/
def commandText : Instr → String
  | .wrap => "wrap"
  | .empty => "empty"
  | .append n => "append " ++ toString n
  | .read b o n => "read " ++ bufText b ++ ", " ++ orderText o ++ ", " ++ toString n
  | .length b => "length " ++ bufText b
  | .bitat b => "bitat " ++ bufText b
  | .unstuff w => "unstuff " ++ toString w

/-- A line as R91 spells it, numbers in decimal. -/
def lineText : HostLine → String
  | .command i => commandText i
  | .setArg0 x => "arg0 = " ++ toString x.toNat
  | .setArg1 x => "arg1 = " ++ toString x.toNat
  | .setIn a v => "in[" ++ toString a ++ "] = " ++ toString v.toNat
  | .getIn a => "x = in[" ++ toString a ++ "]"
  | .getResult => "x = result"
  | .getStatus => "x = status"
  | .clearErr => "clear_err"
  | .cmd x => "cmd " ++ toString x.toNat

end Sys2Proof.Machine
end

