-- ==== Sys2Proof/Safety.lean ====
section
/-!
DEFINITION. What counts as a sound state, in the terms the statements use: legal parameters (R12, R13, R36),
the buffer bounds (R35), the values CODE can hold (R28), the canonical form of the IN SRAM; and what is
observed at the end of a run (R220).
-/

namespace Sys2Proof.Machine

open Sys2Proof

/-- The parameters are ones the spec allows: 1 <= IN_BYTES <= 65536 (R12), 8 * IN_BYTES <= OUT_BITS <= 2^24
(R13), and the draw gives each byte of the IN SRAM its value (R36). -/
structure LegalParams (p : Params) : Prop where
  inBytes_pos : 1 ≤ p.inBytes
  inBytes_le : p.inBytes ≤ 65536
  outBits_ge : 8 * p.inBytes ≤ p.outBits
  outBits_le : p.outBits ≤ 2 ^ 24
  sramInit_length : p.sramInit.length = p.inBytes

/-- The invariant of the machine: it holds after reset and every step keeps it. -/
structure State.Inv (s : State) : Prop where
  params_legal : LegalParams s.params
  /-- in_len <= 8 * IN_BYTES (R32, R35). -/
  inLen_le : s.inLen ≤ 8 * s.params.inBytes
  /-- out_len <= OUT_BITS (R34, R35). -/
  outLen_le : s.outLen ≤ s.params.outBits
  /-- CODE holds one of the values 0 to 4 (R28). -/
  code_le : s.code.toNat ≤ 4
  /-- The IN SRAM is in its canonical form. -/
  inMem_wf : Memory.wf s.params s.inMem

/-- Every access so far was decoded: the premise R220 gives for a claim that needs it. -/
def State.noBusError (s : State) : Prop := Response.busError ∉ s.responses

/-- What the end of a run shows (R220). -/
structure Observation where
  arg0 : Word
  arg1 : Word
  result : Word
  status : Word
  inLen : Nat
  inBytes : List Byte
  outLen : Nat
  outBits : Bits
  responses : List Response
  deriving DecidableEq, Repr

/-- The observation of a state: the registers, in_len and every IN SRAM byte, out_len and OutBit(0) to
OutBit(out_len - 1), and the responses (R220). -/
def State.observe (s : State) : Observation :=
  { arg0 := s.arg0
    arg1 := s.arg1
    result := s.result
    status := s.status
    inLen := s.inLen
    inBytes := (List.range s.params.inBytes).map s.inByte
    outLen := s.outLen
    outBits := s.out
    responses := s.responses }

end Sys2Proof.Machine
end

