-- ==== Sys2Proof/Certificates/Slice0/Obligations.lean ====
section
/-!
DEFINITION. The statements about the model, each from numbered rules of the spec. `0x00000#17` is the offset of
CMD, and next states are written out field by field, so that a statement does not lean on the model's own
update functions. The steps of the machine are the host's accesses: `s.inputs = .access a :: rest` says that the
host's next access is `a`.
-/

open Sys2Proof Sys2Proof.Machine

/-! ## Encoding -/

/-- R81, R82, R91: the words of the spec's table of assembled examples, and the WRAP and EMPTY words. -/
def Obligations.ExampleWordsDecode : Prop :=
  decode 0x00000001#32 = .ok .wrap ∧ decode 0x00000002#32 = .ok .empty ∧
  decode 0x000000C3#32 = .ok (.append 3) ∧ decode 0x000002B4#32 = .ok (.read .output .msbf 10) ∧
  decode 0x00000804#32 = .ok (.read .input .lsbf 32) ∧ decode 0x00000015#32 = .ok (.length .output) ∧
  decode 0x00000016#32 = .ok (.bitat .output) ∧ decode 0x00000107#32 = .ok (.unstuff 4) ∧
  decode 0x00000307#32 = .ok (.unstuff 12)

/-- R90, R91: decoding the word of a well-formed command gives the command back, with every field at every
value the encoding admits. -/
def Obligations.DecodeOfEncodeIsTheCommand : Prop :=
  ∀ i : Instr, i.wellFormed = true → decode (encode i) = .ok i

/-- R87, R91: a word that decodes is the word of the command it decodes to. -/
def Obligations.EncodeOfDecodeIsTheWord : Prop :=
  ∀ (c : Word) (i : Instr), decode c = .ok i → i.wellFormed = true ∧ encode i = c

/-- R87: a word is a command of a row exactly when it passes that row's mask and match; a word with a legal OP
that passes no row is ILLEGAL. -/
def Obligations.CommandExactlyWhenMaskMatches : Prop :=
  (∀ c : Word,
    (decode c = .ok .wrap ↔ c &&& 0xFFFFFFFF#32 = 0x00000001#32) ∧
    (decode c = .ok .empty ↔ c &&& 0xFFFFFFFF#32 = 0x00000002#32) ∧
    ((∃ n, decode c = .ok (.append n)) ↔ c &&& 0xFFFFF03F#32 = 0x00000003#32) ∧
    ((∃ b o n, decode c = .ok (.read b o n)) ↔ c &&& 0xFFFFF00F#32 = 0x00000004#32) ∧
    ((∃ b, decode c = .ok (.length b)) ↔ c &&& 0xFFFFFFEF#32 = 0x00000005#32) ∧
    ((∃ b, decode c = .ok (.bitat b)) ↔ c &&& 0xFFFFFFEF#32 = 0x00000006#32) ∧
    ((∃ w, decode c = .ok (.unstuff w)) ↔ c &&& 0xFFFFF03F#32 = 0x00000007#32)) ∧
  (∀ (c : Word) (s : State), 1 ≤ c.toNat % 16 → c.toNat % 16 ≤ 7 →
    c &&& 0xFFFFFFFF#32 ≠ 0x00000001#32 → c &&& 0xFFFFFFFF#32 ≠ 0x00000002#32 →
    c &&& 0xFFFFF03F#32 ≠ 0x00000003#32 → c &&& 0xFFFFF00F#32 ≠ 0x00000004#32 →
    c &&& 0xFFFFFFEF#32 ≠ 0x00000005#32 → c &&& 0xFFFFFFEF#32 ≠ 0x00000006#32 →
    c &&& 0xFFFFF03F#32 ≠ 0x00000007#32 →
    runCommand c s = .next { s with result := 0#32, code := 4#3, err := true })

/-- R89: the words of each command and all legal words, counted over the 2^32 words; every other word is
ILLEGAL, whatever the state. -/
def Obligations.LegalWordsNumber390 : Prop :=
  { c : Word | decode c = .ok .wrap }.ncard = 1 ∧
  { c : Word | decode c = .ok .empty }.ncard = 1 ∧
  { c : Word | ∃ n, decode c = .ok (.append n) }.ncard = 64 ∧
  { c : Word | ∃ b o n, decode c = .ok (.read b o n) }.ncard = 256 ∧
  { c : Word | ∃ b, decode c = .ok (.length b) }.ncard = 2 ∧
  { c : Word | ∃ b, decode c = .ok (.bitat b) }.ncard = 2 ∧
  { c : Word | ∃ w, decode c = .ok (.unstuff w) }.ncard = 64 ∧
  { c : Word | ∃ i, decode c = .ok i }.ncard = 390 ∧
  (∀ (c : Word) (s : State),
    ((∃ i, decode c = .ok i) ∧ ∃ t, runCommand c s = .next t ∧ t.code ≠ 4#3) ∨
    ((∀ i, decode c ≠ .ok i) ∧
      runCommand c s = .next { s with result := 0#32, code := 4#3, err := true }))

/-- R88: a word with a reserved OP is ILLEGAL, whatever its other fields hold. -/
def Obligations.ReservedOpIsIllegal : Prop :=
  ∀ (c : Word) (s : State), (c.toNat % 16 = 0 ∨ 8 ≤ c.toNat % 16) →
    decode c = .error .reservedOp ∧
    runCommand c s = .next { s with result := 0#32, code := 4#3, err := true }

/-! ## The step -/

/-- R23, R64, R90: a 32-bit write to CMD of a word that decodes to a command runs that command, as one step,
on the state in which that access is no longer to come; a next state then also records the OK response. -/
def Obligations.StepRunsTheDecodedCommand : Prop :=
  ∀ (s : State) (c : Word) (i : Instr) (rest : List HostEvent),
    s.inputs = .access (.write 0x00000#17 4 c) :: rest → decode c = .ok i →
    step s = match exec i { s with inputs := rest } with
      | .next t => .next { t with responses := t.responses ++ [.written] }
      | .fault f => .fault f
      | .refused r => .refused r

/-- R186: a word whose OP is reserved, or that has a must-be-zero field that is not zero (so that it passes no
row of R87), raises ILLEGAL; an APPEND word with MODE = 1 is one; no operand is read. -/
def Obligations.WordOutsideTheTableRaisesIllegal : Prop :=
  ∀ (s : State) (c : Word) (rest : List HostEvent),
    s.inputs = .access (.write 0x00000#17 4 c) :: rest →
    ((c ≠ 0x00000001#32 ∧ c ≠ 0x00000002#32 ∧ c &&& 0xFFFFF03F#32 ≠ 0x00000003#32 ∧
        c &&& 0xFFFFF00F#32 ≠ 0x00000004#32 ∧ c &&& 0xFFFFFFEF#32 ≠ 0x00000005#32 ∧
        c &&& 0xFFFFFFEF#32 ≠ 0x00000006#32 ∧ c &&& 0xFFFFF03F#32 ≠ 0x00000007#32) ∨
      (c.toNat % 16 = 3 ∧ c.getLsbD 5 = true)) →
    step s = .next { s with
      result := 0#32, code := 4#3, err := true, inputs := rest, responses := s.responses ++ [.written] }

/-- R220, R221: every step is taken, from every state; a host access takes exactly one step, which uses it up
and records exactly one response. -/
def Obligations.EveryAccessGetsOneResponse : Prop :=
  (∀ s : State, ∃ t, step s = .next t) ∧
  (∀ (s : State) (a : HostAccess) (rest : List HostEvent), s.inputs = .access a :: rest →
    ∃ t r, step s = .next t ∧ t.inputs = rest ∧ t.responses = s.responses ++ [r])

/-- R200: with nothing coming from outside, a step leaves all state as it is. -/
def Obligations.IdleMachineKeepsItsState : Prop :=
  ∀ s : State, s.inputs = [] → step s = .next s

/-! ## WRAP, EMPTY, APPEND -/

/-- R102, R103, R105: WRAP with B = ARG1 and L = ARG0 makes IN a view of L bits, most significant bit of each
byte first; outside its bounds it raises RANGE and keeps the earlier view. Its word is 0x00000001. -/
def Obligations.WrapMakesTheView : Prop :=
  (∀ c : Word, decode c = .ok .wrap ↔ c = 0x00000001#32) ∧
  (∀ s : State, s.arg1.toNat ≤ s.params.inBytes → s.arg0.toNat ≤ 8 * s.arg1.toNat →
    exec .wrap s = .next { s with inLen := s.arg0.toNat, result := s.arg0, code := 0#3 } ∧
    ∀ k, k < s.arg0.toNat →
      State.bit { s with inLen := s.arg0.toNat, result := s.arg0, code := 0#3 } .input k
        = (s.inByte (k / 8)).getLsbD (7 - k % 8)) ∧
  (∀ s : State, (s.params.inBytes < s.arg1.toNat ∨ 8 * s.arg1.toNat < s.arg0.toNat) →
    exec .wrap s = .next { s with result := 0#32, code := 2#3, err := true })

/-- R106: EMPTY, the word 0x00000002, makes OUT empty, from every state, with RESULT 0 and CODE OK, and changes
nothing else. -/
def Obligations.EmptyMakesOutEmpty : Prop :=
  (∀ c : Word, decode c = .ok .empty ↔ c = 0x00000002#32) ∧
  ∀ s : State, exec .empty s = .next { s with out := [], result := 0#32, code := 0#3 }

/-- R108, R109, R110: APPEND adds the low n bits of ARG0 to OUT, most significant first, and answers the new
length; a count above 32 raises CONFIG and an append past OUT_BITS raises RANGE, CONFIG first. Its words are
those of its mask and match, n in bits 11:6. -/
def Obligations.AppendAddsTheLowBits : Prop :=
  (∀ (c : Word) (n : Nat), decode c = .ok (.append n) ↔
    c &&& 0xFFFFF03F#32 = 0x00000003#32 ∧ n = c.toNat / 2 ^ 6 % 2 ^ 6) ∧
  (∀ (s : State) (n : Nat), n ≤ 32 → s.out.length + n ≤ s.params.outBits →
    exec (.append n) s = .next { s with
      out := s.out ++ (List.range n).map (fun j => s.arg0.getLsbD (n - 1 - j))
      result := BitVec.ofNat 32 (s.out.length + n)
      code := 0#3 }) ∧
  (∀ (s : State) (n : Nat), 32 < n →
    exec (.append n) s = .next { s with result := 0#32, code := 1#3, err := true }) ∧
  (∀ (s : State) (n : Nat), n ≤ 32 → s.params.outBits < s.out.length + n →
    exec (.append n) s = .next { s with result := 0#32, code := 2#3, err := true })

/-- R112: only the low n bits of ARG0 have an effect on an APPEND of n bits. -/
def Obligations.AppendIgnoresTheHighBits : Prop :=
  ∀ (s : State) (n : Nat) (v v' : Word), v.toNat % 2 ^ n = v'.toNat % 2 ^ n →
    ∃ t, exec (.append n) { s with arg0 := v } = .next t ∧
      exec (.append n) { s with arg0 := v' } = .next { t with arg0 := v' }

/-- R55: a value appended with n bits at OUT index p reads back, most significant first, from p. -/
def Obligations.AppendThenReadReturnsTheValue : Prop :=
  ∀ (s : State) (n : Nat) (p : Word), n ≤ 32 → s.out.length + n ≤ s.params.outBits →
    p.toNat = s.out.length → s.arg0.toNat < 2 ^ n →
    ∃ t u, exec (.append n) s = .next t ∧ exec (.read .output .msbf n) { t with arg0 := p } = .next u ∧
      u.code = 0#3 ∧ u.result = s.arg0

/-! ## READ, LENGTH, BITAT -/

/-- R54, R114, R115, R116: READ answers the sum of its n bits, each with the weight its order gives it; a count
above 32 raises CONFIG and a range past the buffer's length raises RANGE, CONFIG first. Its words are those of its
mask and match, BUF in bit 4 (1 = OUT), MODE in bit 5 (1 = most significant first) and n in bits 11:6. -/
def Obligations.ReadReturnsTheWeightedBits : Prop :=
  (∀ (c : Word) (b : Buf) (o : BitOrder) (n : Nat), decode c = .ok (.read b o n) ↔
    c &&& 0xFFFFF00F#32 = 0x00000004#32 ∧ (b = .output ↔ c.getLsbD 4 = true) ∧
    (o = .msbf ↔ c.getLsbD 5 = true) ∧ n = c.toNat / 2 ^ 6 % 2 ^ 6) ∧
  (∀ (s : State) (b : Buf) (n : Nat), n ≤ 32 → s.arg0.toNat + n ≤ s.len b →
    exec (.read b .msbf n) s = .next { s with
      result := BitVec.ofNat 32 (∑ j ∈ Finset.range n, (s.bit b (s.arg0.toNat + j)).toNat * 2 ^ (n - 1 - j))
      code := 0#3 } ∧
    exec (.read b .lsbf n) s = .next { s with
      result := BitVec.ofNat 32 (∑ j ∈ Finset.range n, (s.bit b (s.arg0.toNat + j)).toNat * 2 ^ j)
      code := 0#3 }) ∧
  (∀ (s : State) (b : Buf) (o : BitOrder) (n : Nat), 32 < n →
    exec (.read b o n) s = .next { s with result := 0#32, code := 1#3, err := true }) ∧
  (∀ (s : State) (b : Buf) (o : BitOrder) (n : Nat), n ≤ 32 → s.len b < s.arg0.toNat + n →
    exec (.read b o n) s = .next { s with result := 0#32, code := 2#3, err := true })

/-- R117: a zero-width READ succeeds with RESULT 0 exactly when its offset is at most the length. -/
def Obligations.ZeroWidthReadBound : Prop :=
  ∀ (s : State) (b : Buf) (o : BitOrder),
    (s.arg0.toNat ≤ s.len b → exec (.read b o 0) s = .next { s with result := 0#32, code := 0#3 }) ∧
    (s.len b < s.arg0.toNat →
      exec (.read b o 0) s = .next { s with result := 0#32, code := 2#3, err := true })

/-- R118: both orders read the same n bits and differ only in their weights: bit i of RESULT is the bit at
offset o + i, least significant first, or o + n - 1 - i, most significant first; above n, RESULT is 0. -/
def Obligations.ReadOrdersDifferOnlyInWeights : Prop :=
  ∀ (s : State) (b : Buf) (n : Nat), n ≤ 32 → s.arg0.toNat + n ≤ s.len b →
    ∃ t u, exec (.read b .lsbf n) s = .next t ∧ exec (.read b .msbf n) s = .next u ∧
      t.result.toNat < 2 ^ n ∧ u.result.toNat < 2 ^ n ∧
      ∀ i, i < n → t.result.getLsbD i = s.bit b (s.arg0.toNat + i) ∧
        u.result.getLsbD i = s.bit b (s.arg0.toNat + (n - 1 - i))

/-- R120: LENGTH answers the logical length of the selected buffer, from every state, and raises no error. Its words
are those of its mask and match, BUF in bit 4. -/
def Obligations.LengthReturnsTheLogicalLength : Prop :=
  (∀ (c : Word) (b : Buf), decode c = .ok (.length b) ↔
    c &&& 0xFFFFFFEF#32 = 0x00000005#32 ∧ (b = .output ↔ c.getLsbD 4 = true)) ∧
  ∀ s : State,
    exec (.length .input) s = .next { s with result := BitVec.ofNat 32 s.inLen, code := 0#3 } ∧
    exec (.length .output) s = .next { s with result := BitVec.ofNat 32 s.out.length, code := 0#3 }

/-- R50, R123, R124: BITAT answers the bit at index ARG0, of IN with the most significant bit of each byte first,
or raises RANGE at an index past the last bit. Its words are those of its mask and match, BUF in bit 4. -/
def Obligations.BitatReturnsOneBit : Prop :=
  (∀ (c : Word) (b : Buf), decode c = .ok (.bitat b) ↔
    c &&& 0xFFFFFFEF#32 = 0x00000006#32 ∧ (b = .output ↔ c.getLsbD 4 = true)) ∧
  (∀ s : State, s.arg0.toNat < s.inLen →
    exec (.bitat .input) s = .next { s with
      result := if (s.inByte (s.arg0.toNat / 8)).getLsbD (7 - s.arg0.toNat % 8) then 1#32 else 0#32
      code := 0#3 }) ∧
  (∀ (s : State) (h : s.arg0.toNat < s.out.length),
    exec (.bitat .output) s = .next { s with
      result := if s.out[s.arg0.toNat] then 1#32 else 0#32
      code := 0#3 }) ∧
  (∀ (s : State) (b : Buf), s.len b ≤ s.arg0.toNat →
    exec (.bitat b) s = .next { s with result := 0#32, code := 2#3, err := true })

/-- R125: inside the bound, BITAT answers what a one-bit READ at the same offset answers, in either order. -/
def Obligations.BitatIsAOneBitRead : Prop :=
  ∀ (s : State) (b : Buf) (o : BitOrder), s.arg0.toNat < s.len b →
    ∃ t, exec (.bitat b) s = .next t ∧ exec (.read b o 1) s = .next t ∧ t.code = 0#3

/-- R119, R122, R126: READ, LENGTH and BITAT change nothing but RESULT and STATUS, and the same one run in any state
with the same operand and the same buffers answers the same. -/
def Obligations.ReadingCommandsChangeNoBuffer : Prop :=
  ∀ (i : Instr) (s t : State),
    ((∃ b o n, i = .read b o n) ∨ (∃ b, i = .length b) ∨ (∃ b, i = .bitat b)) → exec i s = .next t →
    t = { s with result := t.result, code := t.code, err := t.err } ∧
    ∀ u : State, u.arg0 = s.arg0 → u.inLen = s.inLen → u.out = s.out →
      (∀ k, u.bit .input k = s.bit .input k) →
      ∃ v, exec i u = .next v ∧ v.result = t.result ∧ v.code = t.code

/-! ## UNSTUFF -/

/-- R160, R161: with w legal and no word of the message region reserved, OUT becomes exactly the bits of the
words in index order (a stuffed word without its last bit, a normal word whole), whatever OUT held before;
RESULT is their number. -/
def Obligations.UnstuffReassemblesTheWords : Prop :=
  ∀ (s : State) (w : Nat) (value : Nat → Nat), 2 ≤ w → w ≤ 32 →
    (∀ i, i < s.inLen / w → value i = readBits (s.bit .input) (i * w) w .msbf) →
    (∀ i, i < s.inLen / w → i < s.arg0.toNat → value i ≠ 0 ∧ value i ≠ 2 ^ w - 1) →
    let bits := (List.range (s.inLen / w)).flatMap fun i =>
      if value i = 1 ∨ value i = 2 ^ w - 2 then
        (List.range (w - 1)).map fun j => (value i / 2).testBit (w - 1 - 1 - j)
      else (List.range w).map fun j => (value i).testBit (w - 1 - j)
    exec (.unstuff w) s = .next { s with
      out := bits
      result := BitVec.ofNat 32 bits.length
      code := 0#3 }

/-- R159, R163: with w legal and a word at an index below m equal to 0 or all ones, the command ends in
RESERVED_WORD with OUT empty: no partial result and nothing of the earlier OUT. -/
def Obligations.UnstuffRejectsAReservedMessageWord : Prop :=
  ∀ (s : State) (w i : Nat), 2 ≤ w → w ≤ 32 → i < s.inLen / w → i < s.arg0.toNat →
    (readBits (s.bit .input) (i * w) w .msbf = 0 ∨ readBits (s.bit .input) (i * w) w .msbf = 2 ^ w - 1) →
    exec (.unstuff w) s = .next { s with out := [], result := 0#32, code := 3#3, err := true }

/-- R151: UNSTUFF with w below 2 or above 32 raises CONFIG and leaves OUT and IN unchanged. -/
def Obligations.UnstuffChecksTheWordWidth : Prop :=
  ∀ (s : State) (w : Nat), (w < 2 ∨ 32 < w) →
    exec (.unstuff w) s = .next { s with result := 0#32, code := 1#3, err := true }

/-- R162: on success out_len is n * w - k, with k of the n words stuffed, and RESULT is out_len; so out_len is at
most n * w, in_len, 8 * IN_BYTES and OUT_BITS, and UNSTUFF never raises RANGE. The bound on in_len is part of
the invariant of the model (ResetStateMeetsTheInvariant, EveryStepKeepsTheInvariant). -/
def Obligations.UnstuffAccountsForItsLength : Prop :=
  (∀ (s t : State) (w : Nat), exec (.unstuff w) s = .next t → t.code ≠ 2#3) ∧
  (∀ (s t : State) (w : Nat), LegalParams s.params → s.inLen ≤ 8 * s.params.inBytes →
    exec (.unstuff w) s = .next t → t.code = 0#3 →
    t.out.length = s.inLen / w * w - (List.range (s.inLen / w)).countP (fun i =>
        readBits (s.bit .input) (i * w) w .msbf = 1 ∨ readBits (s.bit .input) (i * w) w .msbf = 2 ^ w - 2) ∧
    t.result.toNat = t.out.length ∧
    t.out.length ≤ s.inLen / w * w ∧ s.inLen / w * w ≤ s.inLen ∧ t.out.length ≤ s.params.outBits)

/-- R156, R158: on an IN of exactly one word, a stuffed word gives its top w - 1 bits, in their order, at every m:
zeros for 0...01 and ones for 1...10; any other word, unless it is reserved and m is not 0, gives its w bits. -/
def Obligations.UnstuffOfOneWord : Prop :=
  ∀ (s : State) (w : Nat), 2 ≤ w → w ≤ 32 → s.inLen = w →
    (readBits (s.bit .input) 0 w .msbf = 1 →
      exec (.unstuff w) s = .next { s with
        out := List.replicate (w - 1) false, result := BitVec.ofNat 32 (w - 1), code := 0#3 }) ∧
    (readBits (s.bit .input) 0 w .msbf = 2 ^ w - 2 →
      exec (.unstuff w) s = .next { s with
        out := List.replicate (w - 1) true, result := BitVec.ofNat 32 (w - 1), code := 0#3 }) ∧
    (readBits (s.bit .input) 0 w .msbf ≠ 1 → readBits (s.bit .input) 0 w .msbf ≠ 2 ^ w - 2 →
      (readBits (s.bit .input) 0 w .msbf ≠ 0 ∧ readBits (s.bit .input) 0 w .msbf ≠ 2 ^ w - 1 ∨ s.arg0 = 0#32) →
      exec (.unstuff w) s = .next { s with
        out := (List.range w).map (s.bit .input), result := BitVec.ofNat 32 w, code := 0#3 })

/-- R152: the tail that does not fill a word is ignored: without those bits in the view the command ends the
same; and with in_len below w the result is an empty OUT with CODE OK. -/
def Obligations.UnstuffIgnoresTheTail : Prop :=
  (∀ (s : State) (w : Nat), 2 ≤ w → w ≤ 32 →
    ∃ t, exec (.unstuff w) s = .next t ∧
      exec (.unstuff w) { s with inLen := s.inLen / w * w } = .next { t with inLen := s.inLen / w * w }) ∧
  (∀ (s : State) (w : Nat), 2 ≤ w → w ≤ 32 → s.inLen < w →
    exec (.unstuff w) s = .next { s with out := [], result := 0#32, code := 0#3 })

/-- R164, R151: UNSTUFF leaves in_len and the IN SRAM as they are, and its outcome is a function of w, m, in_len and
the bits InBit(0 .. n*w-1) alone: two states that agree on these end with the same CODE and RESULT, whatever else
they hold, and with a legal w with the same OUT; with w out of range both end in CONFIG and each keeps its own OUT. -/
def Obligations.UnstuffDependsOnTheViewAlone : Prop :=
  (∀ (s t : State) (w : Nat), exec (.unstuff w) s = .next t →
    t.inLen = s.inLen ∧ t.inMem = s.inMem ∧ ∀ a, t.inByte a = s.inByte a) ∧
  (∀ (s s' : State) (w : Nat), s'.arg0 = s.arg0 → s'.inLen = s.inLen →
    (∀ k, k < s.inLen / w * w → s'.bit .input k = s.bit .input k) →
    ∃ t t', exec (.unstuff w) s = .next t ∧ exec (.unstuff w) s' = .next t' ∧
      t'.code = t.code ∧ t'.result = t.result ∧ (2 ≤ w → w ≤ 32 → t'.out = t.out) ∧
      (w < 2 ∨ 32 < w → t.code = 1#3 ∧ t.out = s.out ∧ t'.out = s'.out))

/-- R166: any m is legal: with m = 0 no word is rejected, and with every m at or above the number of words the
command is rejected exactly when some word of IN is 0 or all ones. -/
def Obligations.MessageWordCountRule : Prop :=
  ∀ (s : State) (w : Nat), 2 ≤ w → w ≤ 32 →
    (s.arg0 = 0#32 → ∃ t, exec (.unstuff w) s = .next t ∧ t.code = 0#3) ∧
    (s.inLen / w ≤ s.arg0.toNat → ∃ t, exec (.unstuff w) s = .next t ∧
      ((∃ i, i < s.inLen / w ∧ (readBits (s.bit .input) (i * w) w .msbf = 0 ∨
          readBits (s.bit .input) (i * w) w .msbf = 2 ^ w - 1)) → t.code = 3#3) ∧
      ((∀ i, i < s.inLen / w → readBits (s.bit .input) (i * w) w .msbf ≠ 0 ∧
          readBits (s.bit .input) (i * w) w .msbf ≠ 2 ^ w - 1) → t.code = 0#3))

/-- R165: for a legal w the values 0, 1, onesMinusOne and ones are pairwise distinct, so that no value is both
stuffed and reserved and the order of the two tests changes no class; for w = 1 they overlap, and UNSTUFF raises
CONFIG; for w = 2 every word value is reserved or stuffed. -/
def Obligations.StuffedAndReservedDoNotOverlap : Prop :=
  (∀ w, 2 ≤ w → w ≤ 32 →
    3 ≤ allOnes w ∧ 2 ≤ onesMinusOne w ∧ [0, stuffLow, onesMinusOne w, allOnes w].Nodup ∧
    ∀ m i value, classify w m i value =
      if i < m ∧ (value = 0 ∨ value = allOnes w) then .reserved
      else if value = stuffLow ∨ value = onesMinusOne w then .stuffed else .normal) ∧
  (allOnes 1 = stuffLow ∧ onesMinusOne 1 = 0 ∧
    ∀ s : State, exec (.unstuff 1) s = .next { s with result := 0#32, code := 1#3, err := true }) ∧
  (∀ m i value, value < 2 ^ 2 → i < m →
    ((value = 0 ∨ value = 3) ∧ classify 2 m i value = .reserved) ∨
    ((value = 1 ∨ value = 2) ∧ classify 2 m i value = .stuffed))

/-! ## Errors and STATUS -/

/-- R182: a command ends with CONFIG in exactly these cases. -/
def Obligations.ConfigExactly : Prop :=
  ∀ (i : Instr) (s : State), ∃ t, exec i s = .next t ∧
    (t.code = 1#3 ↔ (∃ w, i = .unstuff w ∧ (w < 2 ∨ 32 < w)) ∨ (∃ n, i = .append n ∧ 32 < n) ∨
      (∃ b o n, i = .read b o n ∧ 32 < n))

/-- R184, R187: a command ends with RANGE in exactly these cases; where a count is out of its range, CONFIG is the
error reported. -/
def Obligations.RangeExactly : Prop :=
  ∀ (i : Instr) (s : State), ∃ t, exec i s = .next t ∧
    (t.code = 2#3 ↔
      (i = .wrap ∧ (s.params.inBytes < s.arg1.toNat ∨ 8 * s.arg1.toNat < s.arg0.toNat)) ∨
      (∃ n, i = .append n ∧ n ≤ 32 ∧ s.params.outBits < s.out.length + n) ∨
      (∃ b o n, i = .read b o n ∧ n ≤ 32 ∧ s.len b < s.arg0.toNat + n) ∨
      (∃ b, i = .bitat b ∧ s.len b ≤ s.arg0.toNat))

/-- R185: a command ends with RESERVED_WORD exactly when it is an UNSTUFF of a legal width that meets a word with
index below m whose value is 0 or all ones. -/
def Obligations.ReservedWordExactly : Prop :=
  ∀ (i : Instr) (s : State), ∃ t, exec i s = .next t ∧
    (t.code = 3#3 ↔ ∃ w k, i = .unstuff w ∧ 2 ≤ w ∧ w ≤ 32 ∧ k < s.inLen / w ∧ k < s.arg0.toNat ∧
      (readBits (s.bit .input) (k * w) w .msbf = 0 ∨ readBits (s.bit .input) (k * w) w .msbf = 2 ^ w - 1))

/-- R101, R183: a CMD write that ends in an error, ILLEGAL included, changes nothing but STATUS and RESULT, and OUT,
which becomes empty, where the error is RESERVED_WORD. -/
def Obligations.ErrorsArePrecise : Prop :=
  ∀ (c : Word) (s t : State), runCommand c s = .next t → t.code ≠ 0#3 →
    t.code.toNat ≤ 4 ∧
    t = { s with result := 0#32, code := t.code, err := true, out := if t.code = 3#3 then [] else s.out }

/-- R29: STATUS.ERR is set by a command that ends in an error, left alone by one that succeeds, cleared by a host
write to STATUS with bit 8 = 1 and by nothing else but reset; its reset value is 0. -/
def Obligations.StatusErrIsSticky : Prop :=
  (∀ (c : Word) (s t : State), runCommand c s = .next t →
    (t.code ≠ 0#3 → t.err = true) ∧ (t.code = 0#3 → t.err = s.err)) ∧
  (∀ (s : State) (v : Word) (rest : List HostEvent), s.inputs = .access (.write 0x00010#17 4 v) :: rest →
    ∃ t, step s = .next t ∧ t.err = if v.getLsbD 8 then false else s.err) ∧
  (∀ s t : State, step s = .next t → s.err = true → t.err = false → ∃ rest,
    (∃ held, s.inputs = .reset held :: rest) ∨
    (∃ v : Word, s.inputs = .access (.write 0x00010#17 4 v) :: rest ∧ v.getLsbD 8 = true)) ∧
  State.reset.err = false

/-- R30: a host write to STATUS has no effect but on ERR, and does not count as a command: RESULT and CODE stay. -/
def Obligations.StatusWriteReachesErrAlone : Prop :=
  ∀ (s : State) (v : Word) (rest : List HostEvent), s.inputs = .access (.write 0x00010#17 4 v) :: rest →
    ∃ e, step s = .next { s with err := e, inputs := rest, responses := s.responses ++ [.written] }

/-! ## Frames -/

/-- R24, R25, R83, R86, R128: what each of the seven commands leaves unchanged: ARG0, ARG1, every byte of the IN
SRAM and the parameters always; in_len by every command but WRAP; OUT by WRAP, READ, LENGTH and BITAT; and every
bit OUT held before by APPEND. -/
def Obligations.CommandFrame : Prop :=
  ∀ (i : Instr) (s t : State), exec i s = .next t →
    t.arg0 = s.arg0 ∧ t.arg1 = s.arg1 ∧ t.inMem = s.inMem ∧ (∀ a, t.inByte a = s.inByte a) ∧
    t.params = s.params ∧ t.inputs = s.inputs ∧ t.responses = s.responses ∧
    (i ≠ .wrap → t.inLen = s.inLen) ∧
    (i ≠ .empty → (∀ n, i ≠ .append n) → (∀ w, i ≠ .unstuff w) → t.out = s.out) ∧
    (∀ n, i = .append n → t.out.take s.out.length = s.out)

/-- R128: only a backed window write of the host changes a byte of the IN SRAM, and only WRAP, a backed window
write and reset change in_len. -/
def Obligations.InChangesOnlyByWrapWindowAndReset : Prop :=
  ∀ s t : State, step s = .next t →
    ((∀ a, t.inByte a = s.inByte a) ∨ ∃ o v k rest, s.inputs = .access (.write o 1 v) :: rest ∧
      o.toNat = 0x10000 + k ∧ k < s.params.inBytes ∧
      ∀ a, a ≠ k → Memory.wf s.params s.inMem → t.inByte a = s.inByte a) ∧
    (t.inLen = s.inLen ∨ ∃ rest, s.inputs = .access (.write 0x00000#17 4 0x00000001#32) :: rest ∨
      (∃ held, s.inputs = .reset held :: rest) ∨
      ∃ o v k, s.inputs = .access (.write o 1 v) :: rest ∧ o.toNat = 0x10000 + k ∧ k < s.params.inBytes)

/-- R129: OUT changes only by being appended to, by an APPEND, or is replaced by EMPTY, UNSTUFF or reset. -/
def Obligations.OutChangesOnlyByAppending : Prop :=
  ∀ s t : State, step s = .next t → t.out ≠ s.out → ∃ rest,
    (∃ c : Word, s.inputs = .access (.write 0x00000#17 4 c) :: rest ∧
      ((c &&& 0xFFFFF03F#32 = 0x00000003#32 ∧ ∃ bits, t.out = s.out ++ bits) ∨
       (c = 0x00000002#32 ∧ t.out = []) ∨ c &&& 0xFFFFF03F#32 = 0x00000007#32)) ∨
    (∃ held, s.inputs = .reset held :: rest ∧ t.out = [])

/-- R51: the bits of the IN SRAM outside the view have no effect on any command: with another IN SRAM that agrees on
the bits below in_len, every command does the same. -/
def Obligations.BitsOutsideTheViewHaveNoEffect : Prop :=
  ∀ (i : Instr) (s : State) (m : Memory),
    (∀ k, k < s.inLen → State.bit { s with inMem := m } .input k = s.bit .input k) →
    ∃ t, exec i s = .next t ∧ exec i { s with inMem := m } = .next { t with inMem := m }

/-- R104: while a view exists its bits do not change: a step after which IN is a nonempty view, and which is not a
WRAP, found the same view, with the same bits. -/
def Obligations.LiveViewNeverChanges : Prop :=
  ∀ s t : State, step s = .next t → t.inLen ≠ 0 →
    (∀ rest, s.inputs ≠ .access (.write 0x00000#17 4 0x00000001#32) :: rest) →
    t.inLen = s.inLen ∧ ∀ k, t.bit .input k = s.bit .input k

/-! ## The host port -/

/-- R22 to R28: an aligned 32-bit read in the register block answers the register's value, STATUS as CODE in bits
2:0 and ERR in bit 8, and 0 for CMD and every reserved offset; it changes nothing else. -/
def Obligations.RegisterReadsReturnTheirValue : Prop :=
  ∀ (s : State) (o : Offset) (rest : List HostEvent), s.inputs = .access (.read o 4) :: rest →
    o.toNat < 0x10000 → o.toNat % 4 = 0 →
    step s = .next { s with
      inputs := rest
      responses := s.responses ++ [.word
        (if o.toNat = 0x4 then s.arg0
         else if o.toNat = 0x8 then s.arg1
         else if o.toNat = 0xC then s.result
         else if o.toNat = 0x10 then BitVec.ofNat 32 (s.code.toNat + 256 * s.err.toNat)
         else 0#32)] }

/-- R24, R25: a 32-bit write to ARG0 or ARG1 stores all 32 bits and nothing else, whatever the host does next; and where
its next access reads the same register, that read gives them back. -/
def Obligations.OperandRegistersHoldWhatIsWritten : Prop :=
  (∀ (s : State) (v : Word) (rest : List HostEvent),
    (s.inputs = .access (.write 0x00004#17 4 v) :: rest →
      step s = .next { s with arg0 := v, inputs := rest, responses := s.responses ++ [.written] }) ∧
    (s.inputs = .access (.write 0x00008#17 4 v) :: rest →
      step s = .next { s with arg1 := v, inputs := rest, responses := s.responses ++ [.written] })) ∧
  (∀ (s : State) (v : Word) (rest : List HostEvent),
    (s.inputs = .access (.write 0x00004#17 4 v) :: .access (.read 0x00004#17 4) :: rest →
      ∃ t, step s = .next t ∧
        step t = .next { s with arg0 := v, inputs := rest, responses := s.responses ++ [.written, .word v] }) ∧
    (s.inputs = .access (.write 0x00008#17 4 v) :: .access (.read 0x00008#17 4) :: rest →
      ∃ t, step s = .next t ∧
        step t = .next { s with arg1 := v, inputs := rest, responses := s.responses ++ [.written, .word v] }))

/-- R26, R31: a 32-bit aligned write to RESULT or to a reserved register offset is ignored, and a read of a reserved
offset answers 0. -/
def Obligations.ResultAndReservedOffsetsIgnoreWrites : Prop :=
  ∀ (s : State) (o : Offset) (rest : List HostEvent), o.toNat < 0x10000 → o.toNat % 4 = 0 →
    (∀ v, s.inputs = .access (.write o 4 v) :: rest → (o.toNat = 0xC ∨ 0x14 ≤ o.toNat) →
      step s = .next { s with inputs := rest, responses := s.responses ++ [.written] }) ∧
    (s.inputs = .access (.read o 4) :: rest → 0x14 ≤ o.toNat →
      step s = .next { s with inputs := rest, responses := s.responses ++ [.word 0#32] })

/-- R65, R193: an access to the register block that is not 32 bits wide or not 4-byte aligned, and an access to the
window that is not 8 bits wide, gets a bus ERROR and changes no state; it executes no command. -/
def Obligations.UnsupportedAccessGetsABusError : Prop :=
  ∀ (s : State) (o : Offset) (width : Nat) (v : Word) (rest : List HostEvent),
    ((o.toNat < 0x10000 ∧ (width ≠ 4 ∨ o.toNat % 4 ≠ 0)) ∨ (0x10000 ≤ o.toNat ∧ width ≠ 1)) →
    (s.inputs = .access (.read o width) :: rest ∨ s.inputs = .access (.write o width v) :: rest) →
    step s = .next { s with inputs := rest, responses := s.responses ++ [.busError] }

/-- R65, R220: a bus ERROR shows only in the response list, and only for an access that is not supported: a step that
performs a 32-bit aligned access to the register block or an 8-bit access to the window adds none. -/
def Obligations.SupportedAccessesGetNoBusError : Prop :=
  ∀ (s t : State) (a : HostAccess) (o : Offset) (width : Nat) (rest : List HostEvent),
    s.inputs = .access a :: rest → (a = .read o width ∨ ∃ v, a = .write o width v) →
    ((o.toNat < 0x10000 ∧ width = 4 ∧ o.toNat % 4 = 0) ∨ (0x10000 ≤ o.toNat ∧ width = 1)) →
    s.noBusError → step s = .next t → t.noBusError

/-- R61: a backed 8-bit window write stores the byte and makes IN an empty view, and changes no other state. The
premise that the IN SRAM is in canonical form is part of the model's invariant. -/
def Obligations.WindowWriteStoresAndDropsTheView : Prop :=
  ∀ (s : State) (o : Offset) (a : Nat) (v : Word) (rest : List HostEvent), Memory.wf s.params s.inMem →
    s.inputs = .access (.write o 1 v) :: rest → o.toNat = 0x10000 + a → a < s.params.inBytes →
    ∃ t, step s = .next t ∧
      (∀ b, t.inByte b = if b = a then v.setWidth 8 else s.inByte b) ∧
      t = { s with inMem := t.inMem, inLen := 0, inputs := rest, responses := s.responses ++ [.written] }

/-- R62: an 8-bit write at an unbacked window offset is ignored and keeps the view; an 8-bit read there answers 0. -/
def Obligations.UnbackedWindowReadsZeroIgnoresWrites : Prop :=
  ∀ (s : State) (o : Offset) (v : Word) (rest : List HostEvent),
    0x10000 + s.params.inBytes ≤ o.toNat →
    (s.inputs = .access (.write o 1 v) :: rest →
      step s = .next { s with inputs := rest, responses := s.responses ++ [.written] }) ∧
    (s.inputs = .access (.read o 1) :: rest →
      step s = .next { s with inputs := rest, responses := s.responses ++ [.byte 0#8] })

/-- R59: an 8-bit read of a backed window byte answers that byte and has no side effect; in_len stays. -/
def Obligations.WindowReadReturnsTheByte : Prop :=
  ∀ (s : State) (o : Offset) (a : Nat) (rest : List HostEvent), s.inputs = .access (.read o 1) :: rest →
    o.toNat = 0x10000 + a → a < s.params.inBytes →
    step s = .next { s with inputs := rest, responses := s.responses ++ [.byte (s.inByte a)] }

/-- R63: an access other than a write to CMD, to ARG0 or ARG1, to STATUS with bit 8 = 1, or of a backed window byte
has no side effect; every read has none, and read twice with no write between it answers the same value twice. -/
def Obligations.OnlyTheListedAccessesHaveSideEffects : Prop :=
  (∀ (s : State) (a : HostAccess) (rest : List HostEvent), s.inputs = .access a :: rest →
    (∀ c, a ≠ .write 0x00000#17 4 c) → (∀ v, a ≠ .write 0x00004#17 4 v) → (∀ v, a ≠ .write 0x00008#17 4 v) →
    (∀ v : Word, v.getLsbD 8 = true → a ≠ .write 0x00010#17 4 v) →
    (∀ o v k, a = .write o 1 v → o.toNat = 0x10000 + k → s.params.inBytes ≤ k) →
    ∃ r, step s = .next { s with inputs := rest, responses := s.responses ++ [r] }) ∧
  (∀ (s : State) (o : Offset) (width : Nat) (rest : List HostEvent),
    s.inputs = .access (.read o width) :: .access (.read o width) :: rest →
    ∃ r t, step s = .next t ∧
      t = { s with inputs := .access (.read o width) :: rest, responses := s.responses ++ [r] } ∧
      step t = .next { s with inputs := rest, responses := s.responses ++ [r, r] })

/-- R91: a command line whose count fits CNT assembles to a CMD write whose word decodes to that command; the
assembler rejects every other count. -/
def Obligations.AssembledCommandsDecode : Prop :=
  (∀ i : Instr, i.wellFormed = true →
    ∃ c, assembleLine (.command i) = some (.write 0x00000#17 4 c) ∧ decode c = .ok i) ∧
  (∀ n b o, 63 < n → assembleLine (.command (.append n)) = none ∧
    assembleLine (.command (.read b o n)) = none ∧ assembleLine (.command (.unstuff n)) = none)

/-- R38, R220: the CWU has no state beyond what the end of a run shows: two states with the same observation, of
CWUs with the same IN_BYTES and OUT_BITS and with the same events to come, have the same observation after a step.
The premises that the IN SRAMs are in canonical form are part of the model's invariant. -/
def Obligations.NoStateBeyondTheObservation : Prop :=
  ∀ s s' : State, s'.observe = s.observe → s'.params.inBytes = s.params.inBytes →
    s'.params.outBits = s.params.outBits → s'.inputs = s.inputs →
    Memory.wf s.params s.inMem → Memory.wf s'.params s'.inMem →
    ∃ t t', step s = .next t ∧ step s' = .next t' ∧ t'.observe = t.observe

/-- R15, R58: exactly the platform addresses of the 128 KiB from BLOCK_BASE reach the CWU, each at its own offset. -/
def Obligations.ApertureIs128KiBFromBlockBase : Prop :=
  ∀ (p : Params) (address : Nat) (o : Offset),
    offsetOf p address = some o ↔ address = p.blockBase + o.toNat

/-! ## Reset and the invariant -/

/-- R210, R36: the state right after reset has every register and both lengths zero, and the IN SRAM reads as the
draw. That the draw is `Config.inSramInit` is the model's form of the free input (assumption log 1). -/
def Obligations.ResetStateAsTheSpecGivesIt : Prop :=
  State.reset.arg0 = 0#32 ∧ State.reset.arg1 = 0#32 ∧ State.reset.result = 0#32 ∧ State.reset.code = 0#3 ∧
  State.reset.err = false ∧ State.reset.status = 0#32 ∧ State.reset.inLen = 0 ∧ State.reset.out = [] ∧
  State.reset.inMem = [] ∧ ∀ (a : Nat) (h : a < Config.inBytes), State.reset.inByte a = Config.inSramInit[a]

/-- R210, R211: the reset input puts every register and both lengths at 0 from every state, keeps the IN SRAM, sets
no error, and performs none of the accesses it abandons. That the responses start anew is the model's choice
(assumption log 2). -/
def Obligations.ResetInputPutsTheResetState : Prop :=
  ∀ (s : State) (abandoned : List HostAccess) (rest : List HostEvent), s.inputs = .reset abandoned :: rest →
    step s = .next
      { arg0 := 0#32, arg1 := 0#32, result := 0#32, code := 0#3, err := false, inLen := 0, out := []
        inMem := s.inMem, params := s.params, inputs := rest, responses := [] }

/-- R212: right after reset, whatever the host then writes to ARG0 and ARG1: WRAP makes a view within its bounds and
raises RANGE past them, EMPTY succeeds, LENGTH answers 0 for both buffers, READ and BITAT raise RANGE for a nonzero
width, UNSTUFF with a legal w succeeds with an empty OUT, and APPEND appends to the empty OUT. -/
def Obligations.RightAfterResetCommandsAreUsable : Prop :=
  ∀ (a0 a1 : Word) (s : State), s = { State.reset with arg0 := a0, arg1 := a1 } →
    (a1.toNat ≤ Config.inBytes → a0.toNat ≤ 8 * a1.toNat →
      exec .wrap s = .next { s with inLen := a0.toNat, result := a0, code := 0#3 }) ∧
    ((Config.inBytes < a1.toNat ∨ 8 * a1.toNat < a0.toNat) →
      exec .wrap s = .next { s with result := 0#32, code := 2#3, err := true }) ∧
    exec .empty s = .next { s with out := [], result := 0#32, code := 0#3 } ∧
    (∀ b, exec (.length b) s = .next { s with result := 0#32, code := 0#3 }) ∧
    (∀ b o n, 1 ≤ n → n ≤ 32 →
      exec (.read b o n) s = .next { s with result := 0#32, code := 2#3, err := true }) ∧
    (∀ b, exec (.bitat b) s = .next { s with result := 0#32, code := 2#3, err := true }) ∧
    (∀ w, 2 ≤ w → w ≤ 32 →
      exec (.unstuff w) s = .next { s with out := [], result := 0#32, code := 0#3 }) ∧
    (∀ n, n ≤ 32 → n ≤ Config.outBits → exec (.append n) s = .next { s with
      out := (List.range n).map (fun j => a0.getLsbD (n - 1 - j)), result := BitVec.ofNat 32 n, code := 0#3 })

/-- R35, R12, R13: the invariant (legal parameters, in_len and out_len within their bounds, CODE at most 4, the IN
SRAM in canonical form) holds right after reset. -/
def Obligations.ResetStateMeetsTheInvariant : Prop := State.reset.Inv

/-- R35, R28: every step keeps the invariant, from every state that has it. -/
def Obligations.EveryStepKeepsTheInvariant : Prop :=
  ∀ s t : State, s.Inv → step s = .next t → t.Inv

/-- R35: no command yields a state that breaks in_len <= 8 * IN_BYTES or out_len <= OUT_BITS. -/
def Obligations.CommandsKeepTheBufferBounds : Prop :=
  ∀ (c : Word) (s : State), LegalParams s.params → s.inLen ≤ 8 * s.params.inBytes →
    s.out.length ≤ s.params.outBits →
    ∃ t, runCommand c s = .next t ∧ t.inLen ≤ 8 * s.params.inBytes ∧ t.out.length ≤ s.params.outBits
end

