-- ==== Sys2Proof/Laws/Bits.lean ====
section
/-!
SUPPORT. The laws of bit sequences and of reading a bit range as a number (R18, R54).
-/

namespace Sys2Proof.Machine

open Sys2Proof

@[simp] theorem length_seqBits (n v : Nat) : (seqBits n v).length = n := by simp [seqBits]

@[simp] theorem seqBits_zero (v : Nat) : seqBits 0 v = [] := rfl

/-- The first of n+1 bits is bit n of the value (R18). -/
theorem seqBits_succ (n v : Nat) : seqBits (n + 1) v = v.testBit n :: seqBits n v := by
  simp only [seqBits, List.range_succ_eq_map, List.map_cons, List.map_map]
  refine congrArg₂ _ (by simp) (List.map_congr_left fun j _ => ?_)
  simp only [Function.comp]
  congr 1
  omega

/-- Element j of `seq_n(v)` is bit n-1-j of v (R18). -/
theorem seqBits_getElem? {n j : Nat} (h : j < n) (v : Nat) :
    (seqBits n v)[j]? = some (v.testBit (n - 1 - j)) := by
  simp [seqBits, h]

/-- Only the n bits from o on matter to a read (R54). -/
theorem readBits_congr {f g : Nat → Bool} {o n : Nat} (h : ∀ j, j < n → f (o + j) = g (o + j)) (order : BitOrder) :
    readBits f o n order = readBits g o n order := by
  unfold readBits
  refine congrArg List.sum (List.map_congr_left fun j hj => ?_)
  rw [h j (List.mem_range.1 hj)]

@[simp] theorem readBits_zero (f : Nat → Bool) (o : Nat) (order : BitOrder) : readBits f o 0 order = 0 := rfl

/-- Most significant first: the first bit has the highest weight (R54). -/
theorem readBits_msbf_succ (f : Nat → Bool) (o n : Nat) :
    readBits f o (n + 1) .msbf = (f o).toNat * 2 ^ n + readBits f (o + 1) n .msbf := by
  simp only [readBits, List.range_succ_eq_map, List.map_cons, List.sum_cons, List.map_map, bitWeight]
  congr 1
  refine congrArg List.sum (List.map_congr_left fun j _ => ?_)
  simp only [Function.comp]
  rw [show o + (j + 1) = o + 1 + j by omega, show n + 1 - 1 - (j + 1) = n - 1 - j by omega]

/-- Least significant first: the first bit has weight 1 (R54). -/
theorem readBits_lsbf_succ (f : Nat → Bool) (o n : Nat) :
    readBits f o (n + 1) .lsbf = (f o).toNat + 2 * readBits f (o + 1) n .lsbf := by
  simp only [readBits, List.range_succ_eq_map, List.map_cons, List.sum_cons, List.map_map, bitWeight,
    ← List.sum_map_mul_left, pow_zero, mul_one, Nat.add_zero]
  congr 1
  refine congrArg List.sum (List.map_congr_left fun j _ => ?_)
  simp only [Function.comp]
  rw [show o + (j + 1) = o + 1 + j by omega, Nat.pow_succ]
  ring

/-- An n-bit read is below 2^n (R118). -/
theorem readBits_lt (f : Nat → Bool) (o n : Nat) (order : BitOrder) : readBits f o n order < 2 ^ n := by
  induction n generalizing o with
  | zero => simp
  | succ n ih =>
    have hb : (f o).toNat ≤ 1 := Bool.toNat_le _
    have := ih (o + 1)
    cases order with
    | msbf =>
      rw [readBits_msbf_succ, Nat.pow_succ]
      nlinarith [Nat.mul_le_mul_right (2 ^ n) hb]
    | lsbf => rw [readBits_lsbf_succ, Nat.pow_succ]; omega

/-- A one-bit read is the bit, in either order (R125). -/
theorem readBits_one (f : Nat → Bool) (o : Nat) (order : BitOrder) : readBits f o 1 order = (f o).toNat := by
  cases order <;> simp [readBits, bitWeight]

end Sys2Proof.Machine
end

