-- ==== Sys2Proof/Laws/Decode.lean ====
section
/-!
SUPPORT. What the decoder can answer, said once: the commands it reads are those of R87's rows, with the fields of
R81. Later proofs cite these and do not unfold `decode`.
-/

namespace Sys2Proof

/-- Every row of R87 fixes all of OP, so a word that passes the row has the row's OP. -/
theorem fieldOp_of_match {op : Op} {c : Word} (h : c &&& opMask op = opMatch op) :
    opOfNibble (fieldOp c) = some op := by
  have hm : (opMask op).extractLsb' 0 4 = BitVec.allOnes 4 := by cases op <;> decide
  have hc : fieldOp c = fieldOp (opMatch op) := by
    rw [← h]; simp only [fieldOp, BitVec.extractLsb'_and, hm, BitVec.and_allOnes]
  rw [hc]; cases op <;> decide

/-- A word that passes a row's mask and match decodes to the row's command with the word's fields (R87, R90). -/
theorem decode_of_match {op : Op} {c : Word} (h : c &&& opMask op = opMatch op) :
    decode c = .ok (instrOfFields op (fieldBuf c) (fieldMode c) (fieldCnt c)) := by
  simp only [decode, fieldOp_of_match h, h, if_true]

/-- A word decodes to a command exactly when it passes a row's mask and match, and then the command is the row's
with the word's fields (R87, R90). -/
theorem decode_ok_iff {c : Word} {i : Instr} :
    decode c = .ok i ↔ ∃ op, c &&& opMask op = opMatch op ∧
      i = instrOfFields op (fieldBuf c) (fieldMode c) (fieldCnt c) := by
  constructor
  · intro h
    unfold decode at h
    split at h
    · cases h
    · split at h
      · cases h; exact ⟨_, ‹_›, rfl⟩
      · cases h
  · rintro ⟨op, h, rfl⟩
    exact decode_of_match h

/-- A command's operation is its row's. -/
@[simp] theorem opOf_instrOfFields (op : Op) (buf mode : Bool) (cnt : Nat) :
    opOf (instrOfFields op buf mode cnt) = op := by cases op <;> rfl

/-- A word that decodes to a command passes the mask and match of that command's row (R87). -/
theorem match_of_decode {c : Word} {i : Instr} (h : decode c = .ok i) :
    c &&& opMask (opOf i) = opMatch (opOf i) := by
  obtain ⟨op, hm, rfl⟩ := decode_ok_iff.1 h
  rwa [opOf_instrOfFields]

end Sys2Proof
end

