-- ==== Sys2Proof/Laws/Memory.lean ====
section
/-!
SUPPORT. The laws of the IN SRAM: a read after a write, and that every memory operation keeps the canonical
form.
-/

namespace Sys2Proof.Machine

open Sys2Proof

/-- The addresses of a memory rise strictly. -/
abbrev Memory.Rising (m : Memory) : Prop := m.Pairwise fun c d => c.1 < d.1

theorem Memory.find?_eq_none {m : Memory} {a : Nat} (h : ∀ c ∈ m, c.1 ≠ a) : m.find? a = none := by
  induction m with
  | nil => rfl
  | cons c m ih =>
    have hc : c.1 ≠ a := h c (by simp)
    simp [Memory.find?, hc, ih fun d hd => h d (by simp [hd])]

/-- Below the first address of a rising memory nothing is listed. -/
theorem Memory.find?_below {c : Host.Cell} {m : Memory} (h : Memory.Rising (c :: m)) :
    Memory.find? m c.1 = none :=
  Memory.find?_eq_none fun _ hd => Nat.ne_of_gt (List.rel_of_pairwise_cons h hd)

theorem Memory.find?_insert (a b : Nat) (v : Byte) (m : Memory) :
    (Memory.insert a v m).find? b = if b = a then some v else m.find? b := by
  induction m with
  | nil => simp [Memory.insert, Memory.find?, eq_comm]
  | cons c m ih =>
    unfold Memory.insert
    by_cases hab : b = a
    · subst hab
      split
      · simp [Memory.find?]
      · split
        · simp [Memory.find?]
        · have hc : ¬ c.1 = b := by omega
          simp [Memory.find?, hc, ih]
    · have hba : ¬ a = b := fun h => hab h.symm
      split
      · simp [Memory.find?, hba]
      · split
        · rename_i h; subst h; simp [Memory.find?, hba]
        · simp [Memory.find?, ih, hab]

theorem Memory.find?_erase {m : Memory} (h : Memory.Rising m) (a b : Nat) :
    (Memory.erase a m).find? b = if b = a then none else m.find? b := by
  induction m with
  | nil => simp [Memory.erase, Memory.find?]
  | cons c m ih =>
    have hm := ih (List.Pairwise.of_cons h)
    unfold Memory.erase
    by_cases hca : c.1 = a
    · rw [if_pos hca]
      by_cases hba : b = a
      · rw [if_pos hba, hba, ← hca]; exact Memory.find?_below h
      · have hcb : ¬ c.1 = b := by omega
        simp [Memory.find?, hba, hcb]
    · rw [if_neg hca, Memory.find?, hm, Memory.find?]
      by_cases hba : b = a
      · have hcb : ¬ c.1 = b := by omega
        simp [hba, hca]
      · simp [hba]

/-- A read after a write (R59, R61): the byte written at its address, every other byte as before. -/
theorem Memory.read_write {p : Params} {m : Memory} (h : Memory.Rising m) (a b : Nat) (v : Byte) :
    Memory.read p (Memory.write p m a v) b = if b = a then v else Memory.read p m b := by
  unfold Memory.read Memory.write
  by_cases hv : v = unlisted p a
  · rw [if_pos hv, Memory.find?_erase h]
    by_cases hba : b = a <;> simp [hba, hv]
  · rw [if_neg hv, Memory.find?_insert]
    by_cases hba : b = a <;> simp [hba]

theorem Memory.mem_insert {a : Nat} {v : Byte} {m : Memory} {c : Host.Cell}
    (h : c ∈ Memory.insert a v m) : c = (a, v) ∨ c ∈ m := by
  induction m with
  | nil => simpa [Memory.insert] using h
  | cons d m ih =>
    unfold Memory.insert at h
    split at h
    · simpa using h
    · split at h
      · rcases List.mem_cons.1 h with h | h <;> simp [h]
      · rcases List.mem_cons.1 h with h | h
        · simp [h]
        · rcases ih h with h | h <;> simp [h]

theorem Memory.mem_erase {a : Nat} {m : Memory} {c : Host.Cell} (h : c ∈ Memory.erase a m) : c ∈ m := by
  induction m with
  | nil => simp [Memory.erase] at h
  | cons d m ih =>
    unfold Memory.erase at h
    split at h
    · simp [h]
    · rcases List.mem_cons.1 h with h | h
      · simp [h]
      · simp [ih h]

theorem Memory.rising_insert (a : Nat) (v : Byte) {m : Memory} (h : Memory.Rising m) :
    Memory.Rising (Memory.insert a v m) := by
  induction m with
  | nil => simp [Memory.insert]
  | cons c m ih =>
    have hc : ∀ d ∈ m, c.1 < d.1 := fun d hd => List.rel_of_pairwise_cons h hd
    have hm : Memory.Rising m := List.Pairwise.of_cons h
    unfold Memory.insert
    split
    · refine List.pairwise_cons.2 ⟨fun d hd => ?_, h⟩
      rcases List.mem_cons.1 hd with rfl | hd
      · assumption
      · exact Nat.lt_trans (by assumption) (hc d hd)
    · split
      · rename_i hac
        exact List.pairwise_cons.2 ⟨fun d hd => hac ▸ hc d hd, hm⟩
      · refine List.pairwise_cons.2 ⟨fun d hd => ?_, ih hm⟩
        rcases Memory.mem_insert hd with rfl | hd
        · show c.1 < a; omega
        · exact hc d hd

theorem Memory.rising_erase (a : Nat) {m : Memory} (h : Memory.Rising m) :
    Memory.Rising (Memory.erase a m) := by
  induction m with
  | nil => exact h
  | cons c m ih =>
    unfold Memory.erase
    split
    · exact List.Pairwise.of_cons h
    · exact List.pairwise_cons.2
        ⟨fun d hd => List.rel_of_pairwise_cons h (Memory.mem_erase hd), ih (List.Pairwise.of_cons h)⟩

/-- A write of a backed byte keeps the canonical form. -/
theorem Memory.wf_write {p : Params} {m : Memory} (h : Memory.wf p m) {a : Nat} (ha : a < p.inBytes) (v : Byte) :
    Memory.wf p (Memory.write p m a v) := by
  unfold Memory.write
  split <;> rename_i hv
  · exact ⟨Memory.rising_erase a h.1, fun c hc => h.2 c (Memory.mem_erase hc)⟩
  · refine ⟨Memory.rising_insert a v h.1, fun c hc => ?_⟩
    rcases Memory.mem_insert hc with rfl | hc
    · exact ⟨ha, hv⟩
    · exact h.2 c hc

/-- The memory after reset, with nothing listed, is in canonical form. -/
theorem Memory.wf_nil (p : Params) : Memory.wf p [] := by simp [Memory.wf]

/-- In a rising memory a cell is listed exactly when its address finds its byte. -/
theorem Memory.mem_iff_find? {m : Memory} (h : Memory.Rising m) (c : Host.Cell) :
    c ∈ m ↔ m.find? c.1 = some c.2 := by
  induction m with
  | nil => simp [Memory.find?]
  | cons d m ih =>
    by_cases hd : d.1 = c.1
    · have hne : c ∉ m := fun hc => absurd (List.rel_of_pairwise_cons h hc) (by omega)
      simp only [List.mem_cons, hne, or_false, Memory.find?, hd, if_true, Option.some.injEq]
      exact ⟨fun e => by rw [e], fun e => Prod.ext hd.symm e.symm⟩
    · have hne : c ≠ d := fun e => hd (by rw [e])
      simp [Memory.find?, hd, hne, ih (List.Pairwise.of_cons h)]

/-- What a canonical memory lists is fixed by what it reads. -/
theorem Memory.mem_of_read_eq {p : Params} {m n : Memory} (hm : Memory.wf p m) (hn : Memory.wf p n)
    (h : ∀ a, Memory.read p m a = Memory.read p n a) {c : Host.Cell} (hc : c ∈ m) : c ∈ n := by
  have h2 := h c.1
  unfold Memory.read at h2
  rw [(Memory.mem_iff_find? hm.1 c).1 hc] at h2
  refine (Memory.mem_iff_find? hn.1 c).2 ?_
  cases hf : n.find? c.1 with
  | none => rw [hf] at h2; exact absurd h2 (hm.2 c hc).2
  | some w => rw [hf] at h2; exact congrArg some h2.symm

theorem Memory.rising_nodup {m : Memory} (h : Memory.Rising m) : m.Nodup :=
  h.imp fun hab e => absurd hab (by rw [e]; exact Nat.lt_irrefl _)

/-- Two memories in canonical form that read the same at every address are the same data. -/
theorem Memory.wf_ext {p : Params} {m n : Memory} (hm : Memory.wf p m) (hn : Memory.wf p n)
    (h : ∀ a, Memory.read p m a = Memory.read p n a) : m = n :=
  List.Perm.eq_of_pairwise (fun _ _ _ _ h1 h2 => absurd h1 (Nat.lt_asymm h2)) hm.1 hn.1
    ((List.perm_ext_iff_of_nodup (Memory.rising_nodup hm.1) (Memory.rising_nodup hn.1)).2 fun _ =>
      ⟨Memory.mem_of_read_eq hm hn h, Memory.mem_of_read_eq hn hm fun a => (h a).symm⟩)

end Sys2Proof.Machine
end

