-- ==== Sys2Proof/Laws/State.lean ====
section
/-!
SUPPORT. One lemma per field of State and update of it, so that no proof unfolds a record update; and what
each update leaves of the bytes of the IN SRAM and of the two lengths.
-/

namespace Sys2Proof.Machine

open Sys2Proof

/-! ### Write ARG0 (R24) -/

@[simp] theorem State.setArg0_arg0 (s : State) (v : Word) : (s.setArg0 v).arg0 = v := rfl
@[simp] theorem State.setArg0_arg1 (s : State) (v : Word) : (s.setArg0 v).arg1 = s.arg1 := rfl
@[simp] theorem State.setArg0_result (s : State) (v : Word) : (s.setArg0 v).result = s.result := rfl
@[simp] theorem State.setArg0_code (s : State) (v : Word) : (s.setArg0 v).code = s.code := rfl
@[simp] theorem State.setArg0_err (s : State) (v : Word) : (s.setArg0 v).err = s.err := rfl
@[simp] theorem State.setArg0_inLen (s : State) (v : Word) : (s.setArg0 v).inLen = s.inLen := rfl
@[simp] theorem State.setArg0_inMem (s : State) (v : Word) : (s.setArg0 v).inMem = s.inMem := rfl
@[simp] theorem State.setArg0_out (s : State) (v : Word) : (s.setArg0 v).out = s.out := rfl
@[simp] theorem State.setArg0_params (s : State) (v : Word) : (s.setArg0 v).params = s.params := rfl
@[simp] theorem State.setArg0_inputs (s : State) (v : Word) : (s.setArg0 v).inputs = s.inputs := rfl
@[simp] theorem State.setArg0_responses (s : State) (v : Word) : (s.setArg0 v).responses = s.responses := rfl
@[simp] theorem State.setArg0_inByte (s : State) (v : Word) (a : Nat) : (s.setArg0 v).inByte a = s.inByte a := rfl
@[simp] theorem State.setArg0_inBit (s : State) (v : Word) (k : Nat) : (s.setArg0 v).inBit k = s.inBit k := rfl
@[simp] theorem State.setArg0_outLen (s : State) (v : Word) : (s.setArg0 v).outLen = s.outLen := rfl

/-! ### Write ARG1 (R25) -/

@[simp] theorem State.setArg1_arg0 (s : State) (v : Word) : (s.setArg1 v).arg0 = s.arg0 := rfl
@[simp] theorem State.setArg1_arg1 (s : State) (v : Word) : (s.setArg1 v).arg1 = v := rfl
@[simp] theorem State.setArg1_result (s : State) (v : Word) : (s.setArg1 v).result = s.result := rfl
@[simp] theorem State.setArg1_code (s : State) (v : Word) : (s.setArg1 v).code = s.code := rfl
@[simp] theorem State.setArg1_err (s : State) (v : Word) : (s.setArg1 v).err = s.err := rfl
@[simp] theorem State.setArg1_inLen (s : State) (v : Word) : (s.setArg1 v).inLen = s.inLen := rfl
@[simp] theorem State.setArg1_inMem (s : State) (v : Word) : (s.setArg1 v).inMem = s.inMem := rfl
@[simp] theorem State.setArg1_out (s : State) (v : Word) : (s.setArg1 v).out = s.out := rfl
@[simp] theorem State.setArg1_params (s : State) (v : Word) : (s.setArg1 v).params = s.params := rfl
@[simp] theorem State.setArg1_inputs (s : State) (v : Word) : (s.setArg1 v).inputs = s.inputs := rfl
@[simp] theorem State.setArg1_responses (s : State) (v : Word) : (s.setArg1 v).responses = s.responses := rfl
@[simp] theorem State.setArg1_inByte (s : State) (v : Word) (a : Nat) : (s.setArg1 v).inByte a = s.inByte a := rfl
@[simp] theorem State.setArg1_inBit (s : State) (v : Word) (k : Nat) : (s.setArg1 v).inBit k = s.inBit k := rfl
@[simp] theorem State.setArg1_outLen (s : State) (v : Word) : (s.setArg1 v).outLen = s.outLen := rfl

/-! ### A host write to STATUS (R29, R30) -/

@[simp] theorem State.writeStatus_arg0 (s : State) (v : Word) : (s.writeStatus v).arg0 = s.arg0 := rfl
@[simp] theorem State.writeStatus_arg1 (s : State) (v : Word) : (s.writeStatus v).arg1 = s.arg1 := rfl
@[simp] theorem State.writeStatus_result (s : State) (v : Word) : (s.writeStatus v).result = s.result := rfl
@[simp] theorem State.writeStatus_code (s : State) (v : Word) : (s.writeStatus v).code = s.code := rfl
@[simp] theorem State.writeStatus_err (s : State) (v : Word) : (s.writeStatus v).err = errAfterWrite s.err v := rfl
@[simp] theorem State.writeStatus_inLen (s : State) (v : Word) : (s.writeStatus v).inLen = s.inLen := rfl
@[simp] theorem State.writeStatus_inMem (s : State) (v : Word) : (s.writeStatus v).inMem = s.inMem := rfl
@[simp] theorem State.writeStatus_out (s : State) (v : Word) : (s.writeStatus v).out = s.out := rfl
@[simp] theorem State.writeStatus_params (s : State) (v : Word) : (s.writeStatus v).params = s.params := rfl
@[simp] theorem State.writeStatus_inputs (s : State) (v : Word) : (s.writeStatus v).inputs = s.inputs := rfl
@[simp] theorem State.writeStatus_responses (s : State) (v : Word) : (s.writeStatus v).responses = s.responses := rfl
@[simp] theorem State.writeStatus_inByte (s : State) (v : Word) (a : Nat) : (s.writeStatus v).inByte a = s.inByte a := rfl
@[simp] theorem State.writeStatus_inBit (s : State) (v : Word) (k : Nat) : (s.writeStatus v).inBit k = s.inBit k := rfl
@[simp] theorem State.writeStatus_outLen (s : State) (v : Word) : (s.writeStatus v).outLen = s.outLen := rfl

/-! ### Set in_len (R32) -/

@[simp] theorem State.setInLen_arg0 (s : State) (l : Nat) : (s.setInLen l).arg0 = s.arg0 := rfl
@[simp] theorem State.setInLen_arg1 (s : State) (l : Nat) : (s.setInLen l).arg1 = s.arg1 := rfl
@[simp] theorem State.setInLen_result (s : State) (l : Nat) : (s.setInLen l).result = s.result := rfl
@[simp] theorem State.setInLen_code (s : State) (l : Nat) : (s.setInLen l).code = s.code := rfl
@[simp] theorem State.setInLen_err (s : State) (l : Nat) : (s.setInLen l).err = s.err := rfl
@[simp] theorem State.setInLen_inLen (s : State) (l : Nat) : (s.setInLen l).inLen = l := rfl
@[simp] theorem State.setInLen_inMem (s : State) (l : Nat) : (s.setInLen l).inMem = s.inMem := rfl
@[simp] theorem State.setInLen_out (s : State) (l : Nat) : (s.setInLen l).out = s.out := rfl
@[simp] theorem State.setInLen_params (s : State) (l : Nat) : (s.setInLen l).params = s.params := rfl
@[simp] theorem State.setInLen_inputs (s : State) (l : Nat) : (s.setInLen l).inputs = s.inputs := rfl
@[simp] theorem State.setInLen_responses (s : State) (l : Nat) : (s.setInLen l).responses = s.responses := rfl
@[simp] theorem State.setInLen_inByte (s : State) (l : Nat) (a : Nat) : (s.setInLen l).inByte a = s.inByte a := rfl
@[simp] theorem State.setInLen_inBit (s : State) (l : Nat) (k : Nat) : (s.setInLen l).inBit k = s.inBit k := rfl
@[simp] theorem State.setInLen_outLen (s : State) (l : Nat) : (s.setInLen l).outLen = s.outLen := rfl

/-! ### Replace OUT (R34) -/

@[simp] theorem State.setOut_arg0 (s : State) (b : Bits) : (s.setOut b).arg0 = s.arg0 := rfl
@[simp] theorem State.setOut_arg1 (s : State) (b : Bits) : (s.setOut b).arg1 = s.arg1 := rfl
@[simp] theorem State.setOut_result (s : State) (b : Bits) : (s.setOut b).result = s.result := rfl
@[simp] theorem State.setOut_code (s : State) (b : Bits) : (s.setOut b).code = s.code := rfl
@[simp] theorem State.setOut_err (s : State) (b : Bits) : (s.setOut b).err = s.err := rfl
@[simp] theorem State.setOut_inLen (s : State) (b : Bits) : (s.setOut b).inLen = s.inLen := rfl
@[simp] theorem State.setOut_inMem (s : State) (b : Bits) : (s.setOut b).inMem = s.inMem := rfl
@[simp] theorem State.setOut_out (s : State) (b : Bits) : (s.setOut b).out = b := rfl
@[simp] theorem State.setOut_params (s : State) (b : Bits) : (s.setOut b).params = s.params := rfl
@[simp] theorem State.setOut_inputs (s : State) (b : Bits) : (s.setOut b).inputs = s.inputs := rfl
@[simp] theorem State.setOut_responses (s : State) (b : Bits) : (s.setOut b).responses = s.responses := rfl
@[simp] theorem State.setOut_inByte (s : State) (b : Bits) (a : Nat) : (s.setOut b).inByte a = s.inByte a := rfl
@[simp] theorem State.setOut_inBit (s : State) (b : Bits) (k : Nat) : (s.setOut b).inBit k = s.inBit k := rfl

/-! ### Append to OUT (R52) -/

@[simp] theorem State.appendOut_arg0 (s : State) (b : Bits) : (s.appendOut b).arg0 = s.arg0 := rfl
@[simp] theorem State.appendOut_arg1 (s : State) (b : Bits) : (s.appendOut b).arg1 = s.arg1 := rfl
@[simp] theorem State.appendOut_result (s : State) (b : Bits) : (s.appendOut b).result = s.result := rfl
@[simp] theorem State.appendOut_code (s : State) (b : Bits) : (s.appendOut b).code = s.code := rfl
@[simp] theorem State.appendOut_err (s : State) (b : Bits) : (s.appendOut b).err = s.err := rfl
@[simp] theorem State.appendOut_inLen (s : State) (b : Bits) : (s.appendOut b).inLen = s.inLen := rfl
@[simp] theorem State.appendOut_inMem (s : State) (b : Bits) : (s.appendOut b).inMem = s.inMem := rfl
@[simp] theorem State.appendOut_out (s : State) (b : Bits) : (s.appendOut b).out = s.out ++ b := rfl
@[simp] theorem State.appendOut_params (s : State) (b : Bits) : (s.appendOut b).params = s.params := rfl
@[simp] theorem State.appendOut_inputs (s : State) (b : Bits) : (s.appendOut b).inputs = s.inputs := rfl
@[simp] theorem State.appendOut_responses (s : State) (b : Bits) : (s.appendOut b).responses = s.responses := rfl
@[simp] theorem State.appendOut_inByte (s : State) (b : Bits) (a : Nat) : (s.appendOut b).inByte a = s.inByte a := rfl
@[simp] theorem State.appendOut_inBit (s : State) (b : Bits) (k : Nat) : (s.appendOut b).inBit k = s.inBit k := rfl

/-! ### A command completes (R100) -/

@[simp] theorem State.complete_arg0 (s : State) (r : Nat) : (s.complete r).arg0 = s.arg0 := rfl
@[simp] theorem State.complete_arg1 (s : State) (r : Nat) : (s.complete r).arg1 = s.arg1 := rfl
@[simp] theorem State.complete_result (s : State) (r : Nat) : (s.complete r).result = BitVec.ofNat 32 r := rfl
@[simp] theorem State.complete_code (s : State) (r : Nat) : (s.complete r).code = codeOk := rfl
@[simp] theorem State.complete_err (s : State) (r : Nat) : (s.complete r).err = errAfter s.err codeOk := rfl
@[simp] theorem State.complete_inLen (s : State) (r : Nat) : (s.complete r).inLen = s.inLen := rfl
@[simp] theorem State.complete_inMem (s : State) (r : Nat) : (s.complete r).inMem = s.inMem := rfl
@[simp] theorem State.complete_out (s : State) (r : Nat) : (s.complete r).out = s.out := rfl
@[simp] theorem State.complete_params (s : State) (r : Nat) : (s.complete r).params = s.params := rfl
@[simp] theorem State.complete_inputs (s : State) (r : Nat) : (s.complete r).inputs = s.inputs := rfl
@[simp] theorem State.complete_responses (s : State) (r : Nat) : (s.complete r).responses = s.responses := rfl
@[simp] theorem State.complete_inByte (s : State) (r : Nat) (a : Nat) : (s.complete r).inByte a = s.inByte a := rfl
@[simp] theorem State.complete_inBit (s : State) (r : Nat) (k : Nat) : (s.complete r).inBit k = s.inBit k := rfl
@[simp] theorem State.complete_outLen (s : State) (r : Nat) : (s.complete r).outLen = s.outLen := rfl

/-! ### A command ends in an error (R183) -/

@[simp] theorem State.raise_arg0 (s : State) (e : ErrorKind) : (s.raise e).arg0 = s.arg0 := rfl
@[simp] theorem State.raise_arg1 (s : State) (e : ErrorKind) : (s.raise e).arg1 = s.arg1 := rfl
@[simp] theorem State.raise_result (s : State) (e : ErrorKind) : (s.raise e).result = 0#32 := rfl
@[simp] theorem State.raise_code (s : State) (e : ErrorKind) : (s.raise e).code = e.code := rfl
@[simp] theorem State.raise_err (s : State) (e : ErrorKind) : (s.raise e).err = errAfter s.err e.code := rfl
@[simp] theorem State.raise_inLen (s : State) (e : ErrorKind) : (s.raise e).inLen = s.inLen := rfl
@[simp] theorem State.raise_inMem (s : State) (e : ErrorKind) : (s.raise e).inMem = s.inMem := rfl
@[simp] theorem State.raise_out (s : State) (e : ErrorKind) : (s.raise e).out = s.out := rfl
@[simp] theorem State.raise_params (s : State) (e : ErrorKind) : (s.raise e).params = s.params := rfl
@[simp] theorem State.raise_inputs (s : State) (e : ErrorKind) : (s.raise e).inputs = s.inputs := rfl
@[simp] theorem State.raise_responses (s : State) (e : ErrorKind) : (s.raise e).responses = s.responses := rfl
@[simp] theorem State.raise_inByte (s : State) (e : ErrorKind) (a : Nat) : (s.raise e).inByte a = s.inByte a := rfl
@[simp] theorem State.raise_inBit (s : State) (e : ErrorKind) (k : Nat) : (s.raise e).inBit k = s.inBit k := rfl
@[simp] theorem State.raise_outLen (s : State) (e : ErrorKind) : (s.raise e).outLen = s.outLen := rfl

/-! ### The reset input (R210) -/

@[simp] theorem State.assertReset_arg0 (s : State) : (s.assertReset).arg0 = 0#32 := rfl
@[simp] theorem State.assertReset_arg1 (s : State) : (s.assertReset).arg1 = 0#32 := rfl
@[simp] theorem State.assertReset_result (s : State) : (s.assertReset).result = 0#32 := rfl
@[simp] theorem State.assertReset_code (s : State) : (s.assertReset).code = 0#3 := rfl
@[simp] theorem State.assertReset_err (s : State) : (s.assertReset).err = false := rfl
@[simp] theorem State.assertReset_inLen (s : State) : (s.assertReset).inLen = 0 := rfl
@[simp] theorem State.assertReset_inMem (s : State) : (s.assertReset).inMem = s.inMem := rfl
@[simp] theorem State.assertReset_out (s : State) : (s.assertReset).out = [] := rfl
@[simp] theorem State.assertReset_params (s : State) : (s.assertReset).params = s.params := rfl
@[simp] theorem State.assertReset_inputs (s : State) : (s.assertReset).inputs = s.inputs := rfl
@[simp] theorem State.assertReset_responses (s : State) : (s.assertReset).responses = [] := rfl
@[simp] theorem State.assertReset_inByte (s : State) (a : Nat) : (s.assertReset).inByte a = s.inByte a := rfl
@[simp] theorem State.assertReset_inBit (s : State) (k : Nat) : (s.assertReset).inBit k = s.inBit k := rfl

/-! ### Record a response (R220) -/

@[simp] theorem State.respond_arg0 (s : State) (r : Response) : (s.respond r).arg0 = s.arg0 := rfl
@[simp] theorem State.respond_arg1 (s : State) (r : Response) : (s.respond r).arg1 = s.arg1 := rfl
@[simp] theorem State.respond_result (s : State) (r : Response) : (s.respond r).result = s.result := rfl
@[simp] theorem State.respond_code (s : State) (r : Response) : (s.respond r).code = s.code := rfl
@[simp] theorem State.respond_err (s : State) (r : Response) : (s.respond r).err = s.err := rfl
@[simp] theorem State.respond_inLen (s : State) (r : Response) : (s.respond r).inLen = s.inLen := rfl
@[simp] theorem State.respond_inMem (s : State) (r : Response) : (s.respond r).inMem = s.inMem := rfl
@[simp] theorem State.respond_out (s : State) (r : Response) : (s.respond r).out = s.out := rfl
@[simp] theorem State.respond_params (s : State) (r : Response) : (s.respond r).params = s.params := rfl
@[simp] theorem State.respond_inputs (s : State) (r : Response) : (s.respond r).inputs = s.inputs := rfl
@[simp] theorem State.respond_responses (s : State) (r : Response) : (s.respond r).responses = s.responses ++ [r] := rfl
@[simp] theorem State.respond_inByte (s : State) (r : Response) (a : Nat) : (s.respond r).inByte a = s.inByte a := rfl
@[simp] theorem State.respond_inBit (s : State) (r : Response) (k : Nat) : (s.respond r).inBit k = s.inBit k := rfl
@[simp] theorem State.respond_outLen (s : State) (r : Response) : (s.respond r).outLen = s.outLen := rfl

/-! ### Set the host's events to come -/

@[simp] theorem State.setInputs_arg0 (s : State) (es : List HostEvent) : (s.setInputs es).arg0 = s.arg0 := rfl
@[simp] theorem State.setInputs_arg1 (s : State) (es : List HostEvent) : (s.setInputs es).arg1 = s.arg1 := rfl
@[simp] theorem State.setInputs_result (s : State) (es : List HostEvent) : (s.setInputs es).result = s.result := rfl
@[simp] theorem State.setInputs_code (s : State) (es : List HostEvent) : (s.setInputs es).code = s.code := rfl
@[simp] theorem State.setInputs_err (s : State) (es : List HostEvent) : (s.setInputs es).err = s.err := rfl
@[simp] theorem State.setInputs_inLen (s : State) (es : List HostEvent) : (s.setInputs es).inLen = s.inLen := rfl
@[simp] theorem State.setInputs_inMem (s : State) (es : List HostEvent) : (s.setInputs es).inMem = s.inMem := rfl
@[simp] theorem State.setInputs_out (s : State) (es : List HostEvent) : (s.setInputs es).out = s.out := rfl
@[simp] theorem State.setInputs_params (s : State) (es : List HostEvent) : (s.setInputs es).params = s.params := rfl
@[simp] theorem State.setInputs_inputs (s : State) (es : List HostEvent) : (s.setInputs es).inputs = es := rfl
@[simp] theorem State.setInputs_responses (s : State) (es : List HostEvent) : (s.setInputs es).responses = s.responses := rfl
@[simp] theorem State.setInputs_inByte (s : State) (es : List HostEvent) (a : Nat) : (s.setInputs es).inByte a = s.inByte a := rfl
@[simp] theorem State.setInputs_inBit (s : State) (es : List HostEvent) (k : Nat) : (s.setInputs es).inBit k = s.inBit k := rfl
@[simp] theorem State.setInputs_outLen (s : State) (es : List HostEvent) : (s.setInputs es).outLen = s.outLen := rfl

/-! ### What is given by a byte of the IN SRAM and by the two ways a command ends -/

/-- A backed byte reads as the memory holds it (R59). -/
theorem State.inByte_backed {s : State} {a : Nat} (h : a < s.params.inBytes) :
    s.inByte a = Memory.read s.params s.inMem a := if_pos h

/-- An unbacked byte reads 0 (R62). -/
theorem State.inByte_unbacked {s : State} {a : Nat} (h : s.params.inBytes ≤ a) : s.inByte a = 0#8 :=
  if_neg (Nat.not_lt.2 h)

/-- A completed command, field by field (R100). -/
theorem State.complete_eq (s : State) (r : Nat) :
    s.complete r = { s with result := BitVec.ofNat 32 r, code := 0#3 } := by
  simp [State.complete, errAfter, codeOk]

/-- A command that ended in an error, field by field (R183). -/
theorem State.raise_eq (s : State) (e : ErrorKind) :
    s.raise e = { s with result := 0#32, code := e.code, err := true } := by
  cases e <;> simp [State.raise, ErrorKind.code, errAfter, codeOk]

/-! ### out_len is the length of OUT (R34) -/

@[simp] theorem State.setOut_outLen (s : State) (b : Bits) : (s.setOut b).outLen = b.length := rfl
@[simp] theorem State.appendOut_outLen (s : State) (b : Bits) : (s.appendOut b).outLen = s.outLen + b.length := by
  simp [State.outLen]
@[simp] theorem State.assertReset_outLen (s : State) : s.assertReset.outLen = 0 := rfl

/-! ### The values of CODE and what they do to ERR (R28, R29) -/

@[simp] theorem errAfter_codeOk (e : Bool) : errAfter e codeOk = e := by cases e <;> rfl
@[simp] theorem errAfter_errorCode (e : Bool) (k : ErrorKind) : errAfter e k.code = true := by
  cases e <;> cases k <;> rfl
theorem ErrorKind.code_ne_ok (k : ErrorKind) : k.code ≠ codeOk := by cases k <;> decide
theorem ErrorKind.code_le (k : ErrorKind) : k.code.toNat ≤ 4 := by cases k <;> decide
theorem ErrorKind.code_injective {k l : ErrorKind} (h : k.code = l.code) : k = l := by
  revert h; cases k <;> cases l <;> decide

end Sys2Proof.Machine
end

