-- ==== Sys2Proof/Laws/Unstuff.lean ====
section
/-!
SUPPORT. What the word loop of UNSTUFF does (R155 to R163).
-/

namespace Sys2Proof.Machine

open Sys2Proof

/-- The loop over one more word, read as its three cases. -/
theorem unstuffWords_cons_some {w m i value : Nat} {values : List Nat} {bits : Bits} :
    unstuffWords w m i (value :: values) = some bits ↔
      classify w m i value ≠ .reserved ∧ ∃ rest, unstuffWords w m (i + 1) values = some rest ∧
        bits = (if classify w m i value = .stuffed then seqBits (w - 1) (value / 2) else seqBits w value) ++ rest := by
  simp only [unstuffWords]
  cases h : classify w m i value <;> simp [eq_comm]

/-- The loop gives nothing exactly when the word or a later one is reserved. -/
theorem unstuffWords_cons_none {w m i value : Nat} {values : List Nat} :
    unstuffWords w m i (value :: values) = none ↔
      classify w m i value = .reserved ∨ unstuffWords w m (i + 1) values = none := by
  simp only [unstuffWords]
  cases h : classify w m i value <;> simp

/-- The loop never gives more bits than the words have (R162). -/
theorem unstuffWords_length_le {w m i : Nat} {values : List Nat} {bits : Bits}
    (h : unstuffWords w m i values = some bits) : bits.length ≤ values.length * w := by
  induction values generalizing i bits with
  | nil => simp [unstuffWords] at h; simp [← h]
  | cons value values ih =>
    obtain ⟨-, rest, hrest, rfl⟩ := unstuffWords_cons_some.1 h
    have := ih hrest
    rw [List.length_append, List.length_cons, Nat.succ_mul]
    split <;> simp only [length_seqBits] <;> omega

@[simp] theorem State.length_words (s : State) (w : Nat) : (s.words w).length = numWords s.inLen w := by
  simp [State.words]

/-- The loop's words end within IN (R153). -/
theorem numWords_mul_le (inLen w : Nat) : numWords inLen w * w ≤ inLen := Nat.div_mul_le_self inLen w

end Sys2Proof.Machine
end

