-- ==== Sys2Proof/Laws/Exec.lean ====
section
/-!
SUPPORT. What each command can do, said once: if it answers a next state, which states that can be. Later
proofs cite these and do not unfold the meanings.
-/

namespace Sys2Proof.Machine

open Sys2Proof

/-- What a window write can do (R61, R62). -/
theorem State.writeWindow_cases (s : State) (a : Nat) (v : Byte) :
    (a < s.params.inBytes ∧
      s.writeWindow a v = { s with inMem := Memory.write s.params s.inMem a v, inLen := 0 }) ∨
    (s.params.inBytes ≤ a ∧ s.writeWindow a v = s) := by
  unfold State.writeWindow
  split
  · exact .inl ⟨by assumption, rfl⟩
  · exact .inr ⟨by omega, rfl⟩

/-- A window write keeps the canonical form of the IN SRAM. -/
theorem State.writeWindow_wf {s : State} (h : Memory.wf s.params s.inMem) (a : Nat) (v : Byte) :
    Memory.wf (s.writeWindow a v).params (s.writeWindow a v).inMem := by
  obtain ⟨ha, he⟩ | ⟨-, he⟩ := s.writeWindow_cases a v <;> rw [he]
  · exact Memory.wf_write h ha v
  · exact h

/-- The IN SRAM of the reset state is in canonical form. -/
theorem reset_inMem_wf : Memory.wf State.reset.params State.reset.inMem := Memory.wf_nil _

theorem execWrap_cases {s t : State} (h : execWrap s = .next t) :
    (t = s.raise .range ∧ (s.params.inBytes < s.operand1 ∨ 8 * s.operand1 < s.operand0)) ∨
    (s.operand1 ≤ s.params.inBytes ∧ s.operand0 ≤ 8 * s.operand1 ∧
      t = (s.setInLen s.operand0).complete s.operand0) := by
  unfold execWrap at h
  dsimp only at h
  split at h
  · cases h; exact .inl ⟨rfl, .inl ‹_›⟩
  · split at h
    · cases h; exact .inl ⟨rfl, .inr ‹_›⟩
    · cases h; exact .inr ⟨by omega, by omega, rfl⟩

theorem execEmpty_cases {s t : State} (h : execEmpty s = .next t) : t = (s.setOut []).complete 0 := by
  cases h; rfl

theorem execAppend_cases {n : Nat} {s t : State} (h : execAppend n s = .next t) :
    (maxMove < n ∧ t = s.raise .config) ∨
    (n ≤ maxMove ∧ s.params.outBits < s.outLen + n ∧ t = s.raise .range) ∨
    (n ≤ maxMove ∧ s.outLen + n ≤ s.params.outBits ∧
      t = (s.appendOut (seqBits n s.operand0)).complete (s.outLen + n)) := by
  unfold execAppend at h
  split at h
  · cases h; exact .inl ⟨‹_›, rfl⟩
  · split at h
    · cases h; exact .inr (.inl ⟨by omega, ‹_›, rfl⟩)
    · cases h; exact .inr (.inr ⟨by omega, by omega, rfl⟩)

theorem execRead_cases {b : Buf} {o : BitOrder} {n : Nat} {s t : State} (h : execRead b o n s = .next t) :
    (maxMove < n ∧ t = s.raise .config) ∨
    (n ≤ maxMove ∧ s.len b < s.operand0 + n ∧ t = s.raise .range) ∨
    (n ≤ maxMove ∧ s.operand0 + n ≤ s.len b ∧ t = s.complete (readBits (s.bit b) s.operand0 n o)) := by
  unfold execRead at h
  split at h
  · cases h; exact .inl ⟨‹_›, rfl⟩
  · split at h
    · cases h; exact .inr (.inl ⟨by omega, ‹_›, rfl⟩)
    · cases h; exact .inr (.inr ⟨by omega, by omega, rfl⟩)

theorem execLength_cases {b : Buf} {s t : State} (h : execLength b s = .next t) : t = s.complete (s.len b) := by
  cases h; rfl

theorem execBitat_cases {b : Buf} {s t : State} (h : execBitat b s = .next t) :
    (s.len b ≤ s.operand0 ∧ t = s.raise .range) ∨
    (s.operand0 < s.len b ∧ t = s.complete (s.bit b s.operand0).toNat) := by
  unfold execBitat at h
  split at h
  · cases h; exact .inl ⟨‹_›, rfl⟩
  · cases h; exact .inr ⟨by omega, rfl⟩

theorem execUnstuff_cases {w : Nat} {s t : State} (h : execUnstuff w s = .next t) :
    ((w < 2 ∨ maxMove < w) ∧ t = s.raise .config) ∨
    (2 ≤ w ∧ w ≤ maxMove ∧ unstuffWords w s.operand0 0 (s.words w) = none ∧
      t = (s.setOut []).raise .reservedWord) ∨
    (2 ≤ w ∧ w ≤ maxMove ∧ ∃ bits, unstuffWords w s.operand0 0 (s.words w) = some bits ∧
      t = (s.setOut bits).complete bits.length) := by
  unfold execUnstuff at h
  split at h
  · cases h; exact .inl ⟨‹_›, rfl⟩
  · split at h
    · cases h; exact .inr (.inl ⟨by omega, by omega, ‹_›, rfl⟩)
    · cases h; exact .inr (.inr ⟨by omega, by omega, _, ‹_›, rfl⟩)

/-- Every command answers a next state, from every state (R180, R192). -/
theorem exec_next (i : Instr) (s : State) : ∃ t, exec i s = .next t := by
  cases i <;>
    simp only [exec, execWrap, execEmpty, execAppend, execRead, execLength, execBitat, execUnstuff] <;>
    (repeat' split) <;> exact ⟨_, rfl⟩

/-- The shapes a command's next state can have: an error that changes nothing but STATUS and RESULT, the
emptied OUT of a rejected UNSTUFF, or a success with its effect on one buffer (R100, R101, R183). -/
inductive Ending (s : State) : State → Prop where
  | error (e : ErrorKind) (he : e = .config ∨ e = .range) : Ending s (s.raise e)
  | rejected : Ending s ((s.setOut []).raise .reservedWord)
  | view (l r : Nat) (hl : l ≤ 8 * s.params.inBytes) : Ending s ((s.setInLen l).complete r)
  | fresh (bits : Bits) (r : Nat) (hb : bits.length ≤ s.inLen) : Ending s ((s.setOut bits).complete r)
  | appended (bits : Bits) (r : Nat) (hb : s.outLen + bits.length ≤ s.params.outBits) :
      Ending s ((s.appendOut bits).complete r)
  | reported (r : Nat) : Ending s (s.complete r)

/-- Every command ends in one of the shapes. -/
theorem exec_ending {i : Instr} {s t : State} (h : exec i s = .next t) : Ending s t := by
  cases i with
  | wrap =>
    obtain ⟨rfl, -⟩ | ⟨h1, h2, rfl⟩ := execWrap_cases h
    · exact .error _ (.inr rfl)
    · exact .view _ _ (by omega)
  | empty => obtain rfl := execEmpty_cases h; exact .fresh _ _ (by simp)
  | append n =>
    obtain ⟨-, rfl⟩ | ⟨-, -, rfl⟩ | ⟨-, h2, rfl⟩ := execAppend_cases h
    · exact .error _ (.inl rfl)
    · exact .error _ (.inr rfl)
    · exact .appended _ _ (by simpa using h2)
  | read b o n =>
    obtain ⟨-, rfl⟩ | ⟨-, -, rfl⟩ | ⟨-, -, rfl⟩ := execRead_cases h
    · exact .error _ (.inl rfl)
    · exact .error _ (.inr rfl)
    · exact .reported _
  | length b => obtain rfl := execLength_cases h; exact .reported _
  | bitat b =>
    obtain ⟨-, rfl⟩ | ⟨-, rfl⟩ := execBitat_cases h
    · exact .error _ (.inr rfl)
    · exact .reported _
  | unstuff w =>
    obtain ⟨-, rfl⟩ | ⟨-, -, -, rfl⟩ | ⟨-, -, bits, hb, rfl⟩ := execUnstuff_cases h
    · exact .error _ (.inl rfl)
    · exact .rejected
    · refine .fresh _ _ (le_trans (unstuffWords_length_le hb) ?_)
      rw [State.length_words]; exact numWords_mul_le _ _

end Sys2Proof.Machine
end

