-- ==== Sys2Proof/Laws/PerInstr.lean ====
section
/-!
SUPPORT. The per-instruction family MaskMatch: the word of a well-formed command has the fixed bits of its row
in R87.
-/

namespace Sys2Proof

/-- A count fits CNT exactly when it is below 64 (R85). -/
theorem fitsCnt_iff (n : Nat) : fitsCnt n = true ↔ n < 64 := decide_eq_true_iff

end Sys2Proof

namespace Sys2Proof.Laws.MaskMatch

open Sys2Proof

/-- The word of a well-formed command passes its row's mask and match (R87, R91). -/
def Statement (i : Instr) : Prop := i.wellFormed = true → encode i &&& opMask (opOf i) = opMatch (opOf i)

/-- A count that fits CNT, tried for every value of CNT. -/
theorem of_fitsCnt {n : Nat} (h : fitsCnt n = true) {P : Nat → Prop} (hP : ∀ m : Fin 64, P m.val) : P n :=
  hP ⟨n, (fitsCnt_iff n).1 h⟩

theorem wrap : Statement .wrap := fun _ => by decide

theorem empty : Statement .empty := fun _ => by decide

theorem append (n : Nat) : Statement (.append n) := fun h =>
  of_fitsCnt (P := fun n => encode (.append n) &&& opMask .append = opMatch .append) h (by decide)

theorem read (b : Buf) (o : BitOrder) (n : Nat) : Statement (.read b o n) := fun h =>
  of_fitsCnt (P := fun n => encode (.read b o n) &&& opMask .read = opMatch .read) h
    (by cases b <;> cases o <;> decide)

theorem length (b : Buf) : Statement (.length b) := fun _ => by cases b <;> decide

theorem bitat (b : Buf) : Statement (.bitat b) := fun _ => by cases b <;> decide

theorem unstuff (w : Nat) : Statement (.unstuff w) := fun h =>
  of_fitsCnt (P := fun w => encode (.unstuff w) &&& opMask .unstuff = opMatch .unstuff) h (by decide)

end Sys2Proof.Laws.MaskMatch
end

