-- ==== Sys2Proof/Laws/Port.lean ====
section
/-!
SUPPORT. What a host access and a step can do.
-/

namespace Sys2Proof.Machine

open Sys2Proof

@[simp] theorem answer_next (r : Response) (s : State) : answer r (.next s) = .next (s.respond r) := rfl

/-- An answered outcome is next exactly when the outcome was. -/
theorem answer_eq_next {r : Response} {o : Host.Outcome State Fault Refusal} {t : State}
    (h : answer r o = .next t) : ∃ u, o = .next u ∧ t = u.respond r := by
  cases o with
  | next u => cases h; exact ⟨u, rfl, rfl⟩
  | fault f => cases h
  | refused f => cases h

/-- A CMD write runs the word's command or raises ILLEGAL (R90). -/
theorem runCommand_cases {c : Word} {s t : State} (h : runCommand c s = .next t) :
    (∃ i, decode c = .ok i ∧ exec i s = .next t) ∨ (∃ e, decode c = .error e ∧ t = s.raise .illegal) := by
  unfold runCommand at h
  split at h
  · exact .inl ⟨_, ‹_›, h⟩
  · cases h; exact .inr ⟨_, ‹_›, rfl⟩

/-- A CMD write answers a next state (R90). -/
theorem runCommand_next (c : Word) (s : State) : ∃ t, runCommand c s = .next t := by
  unfold runCommand
  split
  · exact exec_next _ _
  · exact ⟨_, rfl⟩

/-- A CMD write ends as a command ends, or in ILLEGAL. -/
theorem runCommand_ending {c : Word} {s t : State} (h : runCommand c s = .next t) :
    Ending s t ∨ t = s.raise .illegal := by
  obtain ⟨i, -, hi⟩ | ⟨e, -, rfl⟩ := runCommand_cases h
  · exact .inl (exec_ending hi)
  · exact .inr rfl

/-- A step with nothing to come changes nothing (R200). -/
theorem step_idle {s : State} (h : s.inputs = []) : step s = .next s := by simp [step, h]

/-- A step takes the oldest event and performs it. -/
theorem step_event {s : State} {e : HostEvent} {es : List HostEvent} (h : s.inputs = e :: es) :
    step s = performEvent e (s.setInputs es) := by simp [step, h]

/-- A step's three cases: nothing to come, the reset input, or an access. -/
theorem step_cases {s t : State} (h : step s = .next t) :
    (s.inputs = [] ∧ t = s) ∨
    (∃ held es, s.inputs = .reset held :: es ∧ t = (s.setInputs es).assertReset) ∨
    (∃ a es, s.inputs = .access a :: es ∧ performAccess a (s.setInputs es) = .next t) := by
  cases hi : s.inputs with
  | nil => rw [step_idle hi] at h; cases h; exact .inl ⟨rfl, rfl⟩
  | cons e es =>
    rw [step_event hi] at h
    cases e with
    | access a => exact .inr (.inr ⟨a, es, rfl, h⟩)
    | reset held => cases h; exact .inr (.inl ⟨held, es, rfl, rfl⟩)

/-- An 8-bit access at 0x10000 + k reaches window byte k (R58). -/
theorem targetOf_window {o : Offset} {k : Nat} (h : o.toNat = 0x10000 + k) : targetOf o 1 = .window k := by
  have hlt := o.isLt
  unfold targetOf
  rw [if_neg (by omega), if_pos rfl]
  exact congrArg Target.window (by omega)

/-- An aligned 32-bit access to the register block reaches the register at its offset (R22). -/
theorem targetOf_reg {o : Offset} (h : o.toNat < 0x10000) (h4 : o.toNat % 4 = 0) :
    targetOf o 4 = .reg (regAt o.toNat) := by
  unfold targetOf
  rw [if_pos h, if_pos ⟨rfl, h4⟩]

/-- What an access can do: leave the state (a read, an ignored write or a bus ERROR), run a command, write a
register, or write a backed window byte; and it records one response. -/
theorem performAccess_cases {a : HostAccess} {s t : State} (h : performAccess a s = .next t) :
    ∃ u r, t = u.respond r ∧
      (u = s ∨ (∃ c, a = .write 0#17 4 c ∧ runCommand c s = .next u) ∨
        (∃ v, a = .write 4#17 4 v ∧ u = s.setArg0 v) ∨ (∃ v, a = .write 8#17 4 v ∧ u = s.setArg1 v) ∨
        (∃ v, a = .write 16#17 4 v ∧ u = s.writeStatus v) ∨
        (∃ o v k, a = .write o 1 v ∧ o.toNat = 0x10000 + k ∧ k < s.params.inBytes ∧
          u = s.writeWindow k (v.setWidth 8))) := by
  cases a with
  | read o w => cases h; exact ⟨s, _, rfl, .inl rfl⟩
  | write o w v =>
    simp only [performAccess, targetOf] at h
    split at h
    · split at h
      · rename_i ho hw
        obtain ⟨rfl, -⟩ := hw
        simp only [writeAt] at h
        obtain ⟨u, hu, rfl⟩ := answer_eq_next h
        refine ⟨u, _, rfl, ?_⟩
        have off : ∀ k : Nat, k < 2 ^ 17 → o.toNat = k → o = BitVec.ofNat 17 k := fun k hk e => by
          apply BitVec.eq_of_toNat_eq; simp only [e, BitVec.toNat_ofNat]; omega
        unfold regAt at hu
        split at hu
        · exact .inr (.inl ⟨v, by rw [off 0 (by decide) ‹_›], hu⟩)
        · cases hu; exact .inr (.inr (.inl ⟨v, by rw [off 4 (by decide) ‹_›], rfl⟩))
        · cases hu; exact .inr (.inr (.inr (.inl ⟨v, by rw [off 8 (by decide) ‹_›], rfl⟩)))
        · cases hu; exact .inl rfl
        · cases hu; exact .inr (.inr (.inr (.inr (.inl ⟨v, by rw [off 16 (by decide) ‹_›], rfl⟩))))
        · cases hu; exact .inl rfl
      · cases h; exact ⟨s, _, rfl, .inl rfl⟩
    · split at h
      · rename_i ho hw
        cases h
        refine ⟨_, _, rfl, ?_⟩
        have hlt := o.isLt
        have hk : o.toNat = 0x10000 + o.toNat % 0x10000 := by omega
        by_cases hb : o.toNat % 0x10000 < s.params.inBytes
        · exact .inr (.inr (.inr (.inr (.inr ⟨o, v, o.toNat % 0x10000, by rw [hw], hk, hb, rfl⟩))))
        · left; unfold State.writeWindow; rw [if_neg hb]
      · cases h; exact ⟨s, _, rfl, .inl rfl⟩

end Sys2Proof.Machine
end

