-- ==== Sys2Proof/Tests/Slice0.lean ====
section
/-!
SUPPORT. Small tests, each of one step or one word, with expected values from the spec's own examples (R91) and
test vectors (95_test_vectors.md; its ids are named); and for each statement that has hypotheses, a state and
operands that meet them together.
-/

namespace Sys2Proof.Tests

open Sys2Proof Sys2Proof.Machine

/-! ## Helpers -/

/-- A reset CWU with IN_BYTES = 16 and OUT_BITS = 128, the parameters of the spec's vectors, and some draw. -/
def small : State :=
  { State.reset with
    params := { inBytes := 16, outBits := 128, blockBase := 0x4000, sramInit := List.replicate 16 0xA5#8 } }

/-- The vectors' state A-IN: bytes 0x31, 0xE0 wrapped at 12 bits. -/
def aIn : State := { small with inMem := [(0, 0x31#8), (1, 0xE0#8)], inLen := 12 }

/-- The vectors' state A-OUT: A-IN after `unstuff# 4, 2`, so OUT is 0011000111. -/
def aOut : State :=
  { aIn with out := [false, false, true, true, false, false, false, true, true, true], result := 10#32 }

/-- A state with ARG0 and ARG1 set. -/
def withArgs (s : State) (a0 a1 : Word) : State := { s with arg0 := a0, arg1 := a1 }

/-- IN loaded from byte 0 and wrapped. -/
def wrapped (mem : Memory) (len : Nat) : State := { small with inMem := mem, inLen := len }

/-- A state whose host issues one access next. -/
def next1 (s : State) (a : HostAccess) : State := { s with inputs := [.access a] }

/-- Whether an outcome is a next state. -/
def isNext : Host.Outcome State Fault Refusal → Bool
  | .next _ => true
  | .fault _ => false
  | .refused _ => false

/-- Something seen of a next state. -/
def seen {α : Type} (o : Host.Outcome State Fault Refusal) (f : State → α) : Option α :=
  match o with
  | .next s => some (f s)
  | .fault _ => none
  | .refused _ => none

/-- RESULT and STATUS of a next state. -/
def resultStatus (o : Host.Outcome State Fault Refusal) : Option (Nat × Nat) :=
  seen o fun s => (s.result.toNat, s.status.toNat)

/-! ## Well-formedness: each check refuses a term that fails it -/

theorem test_append_count_64_ill_formed : (Instr.append 64).wellFormed = false := by decide
theorem test_read_count_64_ill_formed : (Instr.read .output .msbf 64).wellFormed = false := by decide
theorem test_unstuff_width_64_ill_formed : (Instr.unstuff 64).wellFormed = false := by decide
theorem test_count_63_well_formed : (Instr.append 63).wellFormed = true := by decide

/-! ## Decoding: the boundary words and the ILLEGAL words of L2.8 -/

theorem test_decode_boundary_words :
    decode 0x00000FC3#32 = .ok (.append 63) ∧ decode 0x00000004#32 = .ok (.read .input .lsbf 0) ∧
    decode 0x00000FF4#32 = .ok (.read .output .msbf 63) ∧ decode 0x00000005#32 = .ok (.length .input) ∧
    decode 0x00000006#32 = .ok (.bitat .input) ∧ decode 0x00000FC7#32 = .ok (.unstuff 63) := by decide

theorem test_decode_reserved_ops :
    decode 0x00000000#32 = .error .reservedOp ∧ decode 0x00000008#32 = .error .reservedOp ∧
    decode 0x0000000F#32 = .error .reservedOp ∧ decode 0xFFFFFFFF#32 = .error .reservedOp := by decide

theorem test_decode_must_be_zero :
    decode 0x00001001#32 = .error .mustBeZero ∧ decode 0x00000012#32 = .error .mustBeZero ∧
    decode 0x00000023#32 = .error .mustBeZero ∧ decode 0x80000004#32 = .error .mustBeZero ∧
    decode 0x00000025#32 = .error .mustBeZero ∧ decode 0x00000056#32 = .error .mustBeZero ∧
    decode 0x00000017#32 = .error .mustBeZero := by decide

theorem test_decodeTableWord : decodeTableWord 32 0x187 = some (.unstuff 6) ∧ decodeTableWord 32 0x27 = none := by
  decide

/-- Each row's command runs as the first step after reset. -/
theorem test_reset_runs_every_row :
    ∀ w ∈ [0x1, 0x2, 0x3, 0x4, 0x5, 0x6, 0x7], isNext (step (State.reset.withFetchWord 32 w)) = true := by decide

/-! ## The commands, on the vectors of L2 -/

/-- WR3: the largest view. -/
theorem test_wrap_whole_sram : seen (exec .wrap (withArgs aIn 128#32 16#32)) (fun t => (t.inLen, t.result.toNat))
    = some (128, 128) := by decide

/-- WR8: 8 * B is computed exactly; the old view is kept. -/
theorem test_wrap_range_keeps_view :
    seen (exec .wrap (withArgs aIn 0xFFFFFFFF#32 16#32)) (fun t => (t.inLen, t.status.toNat)) = some (12, 0x102) := by
  decide

/-- EM1. -/
theorem test_empty_drops_out : seen (exec .empty aOut) (fun t => (t.out, t.inLen, t.result.toNat)) = some ([], 12, 0) := by
  decide

/-- AP1 and AP3: most significant first, bits above n ignored. -/
theorem test_append_order_and_truncation :
    seen (exec (.append 4) (withArgs small 0x3#32 0)) State.out = some [false, false, true, true] ∧
    seen (exec (.append 4) (withArgs small 0x10#32 0)) State.out = some [false, false, false, false] := by decide

/-- AP6 and AP7 scaled to IN_BYTES = 1, OUT_BITS = 12: 10 + 3 is past OUT_BITS, 10 + 2 ends exactly at it. -/
theorem test_append_capacity :
    let s := { aOut with params := { small.params with inBytes := 1, outBits := 12, sramInit := [0#8] } }
    resultStatus (exec (.append 3) s) = some (0, 0x102) ∧ resultStatus (exec (.append 2) s) = some (12, 0) := by decide

/-- RD3 and RD4: the two orders over a byte boundary. -/
theorem test_read_in_both_orders :
    resultStatus (exec (.read .input .msbf 8) (withArgs aIn 4#32 0)) = some (0x1E, 0) ∧
    resultStatus (exec (.read .input .lsbf 8) (withArgs aIn 4#32 0)) = some (0x78, 0) := by decide

/-- RD22, RD12 and RD15: OUT, no wrap of o + n, CONFIG before RANGE. -/
theorem test_read_out_and_errors :
    resultStatus (exec (.read .output .msbf 10) aOut) = some (0xC7, 0) ∧
    resultStatus (exec (.read .input .msbf 1) (withArgs aIn 0xFFFFFFFF#32 0)) = some (0, 0x102) ∧
    resultStatus (exec (.read .input .msbf 40) (withArgs aIn 100#32 0)) = some (0, 0x101) := by decide

/-- LN3 and LN4. -/
theorem test_length_both_buffers :
    resultStatus (exec (.length .input) aOut) = some (12, 0) ∧
    resultStatus (exec (.length .output) aOut) = some (10, 0) := by decide

/-- BA2, BA5 and BA9. -/
theorem test_bitat_and_bound :
    resultStatus (exec (.bitat .input) (withArgs aIn 2#32 0)) = some (1, 0) ∧
    resultStatus (exec (.bitat .input) (withArgs aIn 12#32 0)) = some (0, 0x102) ∧
    resultStatus (exec (.bitat .output) (withArgs aOut 9#32 0)) = some (1, 0) := by decide

/-- US1 and US18: scenario A; five-bit words over byte boundaries with a tail. -/
theorem test_unstuff_success :
    seen (exec (.unstuff 4) (withArgs aIn 2#32 0)) State.out = some aOut.out ∧
    seen (exec (.unstuff 5) (withArgs (wrapped [(0, 0x0F#8), (1, 0xAB#8)] 16) 3#32 0)) State.out
      = some [false, false, false, false, true, true, true, true, true, false, true, false, true] := by decide

/-- US20, with an OUT that is not kept (US28), and US25. -/
theorem test_unstuff_errors :
    seen (exec (.unstuff 6)
        { withArgs (wrapped [(0, 0x06#8), (1, 0xA0#8), (2, 0x3F#8)] 24) 3#32 0 with out := [true, true, true] })
      (fun t => (t.out, t.result.toNat, t.status.toNat)) = some ([], 0, 0x103) ∧
    seen (exec (.unstuff 33) { aIn with out := [true, false, true] })
      (fun t => (t.out, t.result.toNat, t.status.toNat)) = some ([true, false, true], 0, 0x101) := by decide

/-! ## Host accesses, on the vectors of L2.9 and L2.5 -/

/-- IL9: APPEND with signExtend. -/
theorem test_illegal_word :
    seen (step (next1 aOut (.write 0#17 4 0x23#32)))
      (fun t => (t.out, t.inLen, t.status.toNat, t.responses)) = some (aOut.out, 12, 0x104, [.written]) := by decide

/-- HA4 and HA5: STATUS = 0x103 before. -/
theorem test_status_write :
    seen (step (next1 { small with code := 3#3, err := true } (.write 0x10#17 4 0x000000FF#32)))
      (fun t => t.status.toNat) = some 0x103 ∧
    seen (step (next1 { small with code := 3#3, err := true } (.write 0x10#17 4 0x00000100#32)))
      (fun t => t.status.toNat) = some 0x003 := by decide

/-- LN5 and LN6: a backed window write drops the view, an unbacked one does not. -/
theorem test_window_write_drops_view :
    seen (step (next1 aIn (.write 0x10005#17 1 0#32))) (fun t => (t.inLen, (t.inByte 5).toNat)) = some (0, 0) ∧
    seen (step (next1 aIn (.write 0x10010#17 1 0#32))) (fun t => (t.inLen, t.inMem)) = some (12, aIn.inMem) := by decide

/-- HA8 and HA9: window reads; the byte never written reads as the draw. -/
theorem test_window_reads :
    seen (step (next1 aIn (.read 0x10001#17 1))) State.responses = some [.byte 0xE0#8] ∧
    seen (step (next1 aIn (.read 0x10002#17 1))) State.responses = some [.byte 0xA5#8] ∧
    seen (step (next1 aIn (.read 0x10010#17 1))) State.responses = some [.byte 0#8] := by decide

/-- HA10 to HA13: bus ERRORs, with no other change. -/
theorem test_bus_errors :
    ∀ a ∈ [HostAccess.read 0x4#17 2, .write 0x2#17 4 0#32, .write 0x10000#17 4 0#32, .write 0#17 1 1#32],
      step (next1 aIn a) = .next { aIn with responses := [.busError] } := by
  intro a ha
  simp only [List.mem_cons, List.not_mem_nil, or_false] at ha
  rcases ha with rfl | rfl | rfl | rfl <;> rfl

/-- The write of what an unlisted byte reads as removes its cell. -/
theorem test_memory_canonical :
    seen (step (next1 aIn (.write 0x10001#17 1 0xA5#32))) State.inMem = some [(0, 0x31#8)] := by decide

/-! ## The assembler, on the table of R91 and the expansion of R92 -/

theorem test_assemble_examples :
    assembleCommand (.read .output .msbf 10) = some 0x000002B4#32 ∧
    assembleCommand (.read .input .lsbf 32) = some 0x00000804#32 ∧
    assembleCommand (.unstuff 12) = some 0x00000307#32 ∧ assembleCommand (.append 3) = some 0x000000C3#32 ∧
    assembleCommand (.length .output) = some 0x00000015#32 := by decide

theorem test_expand_load_in : expandPseudo (.loadIn 4 [1#8, 2#8]) = [.setIn 4 1#8, .setIn 5 2#8] := by decide

/-! ## Every statement's hypotheses are met -/

theorem witness_DecodeOfEncodeIsTheCommand : ∀ n ∈ [0, 63], (Instr.read .output .msbf n).wellFormed = true := by decide

theorem witness_EncodeOfDecodeIsTheWord : decode 0x00000FF4#32 = .ok (.read .output .msbf 63) := by decide

theorem witness_CommandExactlyWhenMaskMatches_illegal : let c := 0x00000FD7#32
    1 ≤ c.toNat % 16 ∧ c.toNat % 16 ≤ 7 ∧
    c &&& 0xFFFFFFFF#32 ≠ 0x00000001#32 ∧ c &&& 0xFFFFFFFF#32 ≠ 0x00000002#32 ∧
    c &&& 0xFFFFF03F#32 ≠ 0x00000003#32 ∧ c &&& 0xFFFFF00F#32 ≠ 0x00000004#32 ∧
    c &&& 0xFFFFFFEF#32 ≠ 0x00000005#32 ∧ c &&& 0xFFFFFFEF#32 ≠ 0x00000006#32 ∧
    c &&& 0xFFFFF03F#32 ≠ 0x00000007#32 := by decide

theorem witness_ReservedOpIsIllegal :
    (0x00000010#32).toNat % 16 = 0 ∧ 8 ≤ (0x00000008#32).toNat % 16 ∧ 8 ≤ (0xFFFFFFFF#32).toNat % 16 := by decide

theorem witness_StepRunsTheDecodedCommand :
    (next1 aIn (.write 0#17 4 0x107#32)).inputs = .access (.write 0x00000#17 4 0x107#32) :: [] ∧
    decode 0x107#32 = .ok (.unstuff 4) := by decide

theorem witness_WordOutsideTheTableRaisesIllegal :
    let c := 0x00001FC3#32
    (next1 aIn (.write 0#17 4 c)).inputs = .access (.write 0x00000#17 4 c) :: [] ∧
    c ≠ 0x00000001#32 ∧ c ≠ 0x00000002#32 ∧ c &&& 0xFFFFF03F#32 ≠ 0x00000003#32 ∧
    c &&& 0xFFFFF00F#32 ≠ 0x00000004#32 ∧ c &&& 0xFFFFFFEF#32 ≠ 0x00000005#32 ∧
    c &&& 0xFFFFFFEF#32 ≠ 0x00000006#32 ∧ c &&& 0xFFFFF03F#32 ≠ 0x00000007#32 := ⟨rfl, by decide⟩

theorem witness_WordOutsideTheTableRaisesIllegal_signExtend :
    (next1 aIn (.write 0#17 4 0x23#32)).inputs = .access (.write 0x00000#17 4 0x23#32) :: [] ∧
    (0x00000023#32).toNat % 16 = 3 ∧ (0x00000023#32).getLsbD 5 = true := ⟨rfl, by decide⟩

theorem witness_EveryAccessGetsOneResponse :
    (next1 aIn (.read 0x4#17 2)).inputs = .access (.read 0x4#17 2) :: [] := rfl

theorem witness_IdleMachineKeepsItsState : aOut.inputs = [] := rfl

theorem witness_WrapMakesTheView_success : let s := withArgs aIn 128#32 16#32
    s.arg1.toNat ≤ s.params.inBytes ∧ s.arg0.toNat ≤ 8 * s.arg1.toNat ∧ 127 < s.arg0.toNat := by decide

theorem witness_WrapMakesTheView_range :
    (let s := withArgs aIn 0#32 17#32; s.params.inBytes < s.arg1.toNat) ∧
    (let s := withArgs aIn 129#32 16#32; 8 * s.arg1.toNat < s.arg0.toNat) := by decide

theorem witness_AppendAddsTheLowBits_success : let s := { small with out := List.replicate 96 false }
    32 ≤ 32 ∧ s.out.length + 32 ≤ s.params.outBits := by decide

theorem witness_AppendAddsTheLowBits_config : 32 < 33 := by decide

theorem witness_AppendAddsTheLowBits_range : let s := { small with out := List.replicate 97 false }
    32 ≤ 32 ∧ s.params.outBits < s.out.length + 32 := by decide

theorem witness_AppendIgnoresTheHighBits : (0xFF#32).toNat % 2 ^ 4 = (0x0F#32).toNat % 2 ^ 4 := by decide

theorem witness_AppendThenReadReturnsTheValue : let s := withArgs aOut 15#32 0
    4 ≤ 32 ∧ s.out.length + 4 ≤ s.params.outBits ∧ (10#32).toNat = s.out.length ∧ s.arg0.toNat < 2 ^ 4 := by decide

theorem witness_ReadReturnsTheWeightedBits_success : let s := withArgs aOut 2#32 0
    8 ≤ 32 ∧ s.arg0.toNat + 8 ≤ s.len .output := by decide

theorem witness_ReadReturnsTheWeightedBits_config : 32 < 33 := by decide

theorem witness_ReadReturnsTheWeightedBits_range : let s := withArgs aOut 3#32 0
    8 ≤ 32 ∧ s.len .output < s.arg0.toNat + 8 := by decide

theorem witness_ZeroWidthReadBound :
    (withArgs aIn 12#32 0).arg0.toNat ≤ aIn.len .input ∧ aIn.len .input < (withArgs aIn 13#32 0).arg0.toNat := by decide

theorem witness_ReadOrdersDifferOnlyInWeights : let s := withArgs aIn 4#32 0
    8 ≤ 32 ∧ s.arg0.toNat + 8 ≤ s.len .input ∧ 7 < 8 := by decide

theorem witness_BitatReturnsOneBit_in : (withArgs aIn 11#32 0).arg0.toNat < aIn.inLen := by decide

theorem witness_BitatReturnsOneBit_out : (withArgs aOut 9#32 0).arg0.toNat < aOut.out.length := by decide

theorem witness_BitatReturnsOneBit_range : aOut.len .output ≤ (withArgs aOut 10#32 0).arg0.toNat := by decide

theorem witness_BitatIsAOneBitRead : (withArgs aIn 11#32 0).arg0.toNat < aIn.len .input := by decide

theorem witness_ReadingCommandsChangeNoBuffer : ∃ i t, ((∃ b o n, i = Instr.read b o n) ∨ (∃ b, i = .length b) ∨
    (∃ b, i = .bitat b)) ∧ exec i aOut = .next t := ⟨.read .output .msbf 10, _, .inl ⟨_, _, _, rfl⟩, rfl⟩

theorem witness_ReadingCommandsChangeNoBuffer_again : let u := { aOut with arg1 := 7#32, err := true }
    u.arg0 = aOut.arg0 ∧ u.inLen = aOut.inLen ∧ u.out = aOut.out ∧
    ∀ k, u.bit .input k = aOut.bit .input k := ⟨rfl, rfl, rfl, fun _ => rfl⟩

theorem witness_ReadingCommandsChangeNoBuffer_length : ∃ t, exec (.length .output) aOut = .next t := ⟨_, rfl⟩

theorem witness_ReadingCommandsChangeNoBuffer_bitat : ∃ t, exec (.bitat .output) aOut = .next t := ⟨_, rfl⟩

/-- The three words of scenario A. -/
def scenarioWords (i : Nat) : Nat := [3, 1, 14].getD i 0

theorem witness_UnstuffReassemblesTheWords : let s := withArgs aIn 3#32 0
    2 ≤ 4 ∧ 4 ≤ 32 ∧ (∀ i, i < s.inLen / 4 → scenarioWords i = readBits (s.bit .input) (i * 4) 4 .msbf) ∧
    (∀ i, i < s.inLen / 4 → i < s.arg0.toNat → scenarioWords i ≠ 0 ∧ scenarioWords i ≠ 2 ^ 4 - 1) := by decide

theorem witness_UnstuffRejectsAReservedMessageWord :
    ∀ v ∈ [0x30#8, 0x3F#8], let s := withArgs (wrapped [(0, v)] 8) 2#32 0
      2 ≤ 4 ∧ 4 ≤ 32 ∧ 1 < s.inLen / 4 ∧ 1 < s.arg0.toNat ∧
      (readBits (s.bit .input) (1 * 4) 4 .msbf = 0 ∨ readBits (s.bit .input) (1 * 4) 4 .msbf = 2 ^ 4 - 1) := by decide

theorem witness_UnstuffChecksTheWordWidth : 1 < 2 ∧ 32 < 33 := by decide

theorem legalParams_small : LegalParams small.params := by constructor <;> decide

theorem witness_UnstuffAccountsForItsLength : ∃ t, LegalParams (withArgs aIn 2#32 0).params ∧
    (withArgs aIn 2#32 0).inLen ≤ 8 * (withArgs aIn 2#32 0).params.inBytes ∧
    exec (.unstuff 4) (withArgs aIn 2#32 0) = .next t ∧ t.code = 0#3 :=
  ⟨_, legalParams_small, by decide, rfl, by decide⟩

theorem witness_UnstuffOfOneWord_low : let s := wrapped [(0, 0x10#8)] 4
    2 ≤ 4 ∧ 4 ≤ 32 ∧ s.inLen = 4 ∧ readBits (s.bit .input) 0 4 .msbf = 1 := by decide

theorem witness_UnstuffOfOneWord_high : let s := wrapped [(0, 0xE0#8)] 4
    2 ≤ 4 ∧ 4 ≤ 32 ∧ s.inLen = 4 ∧ readBits (s.bit .input) 0 4 .msbf = 2 ^ 4 - 2 := by decide

theorem witness_UnstuffOfOneWord_normal : let s := withArgs (wrapped [(0, 0xD0#8)] 4) 1#32 0
    s.inLen = 4 ∧ readBits (s.bit .input) 0 4 .msbf ≠ 1 ∧ readBits (s.bit .input) 0 4 .msbf ≠ 2 ^ 4 - 2 ∧
    (readBits (s.bit .input) 0 4 .msbf ≠ 0 ∧ readBits (s.bit .input) 0 4 .msbf ≠ 2 ^ 4 - 1 ∨ s.arg0 = 0#32) := by decide

theorem witness_UnstuffOfOneWord_unchecked : let s := wrapped [(0, 0xF0#8)] 4
    s.inLen = 4 ∧ readBits (s.bit .input) 0 4 .msbf ≠ 1 ∧ readBits (s.bit .input) 0 4 .msbf ≠ 2 ^ 4 - 2 ∧
    s.arg0 = 0#32 := by decide

theorem witness_UnstuffIgnoresTheTail : 2 ≤ 5 ∧ 5 ≤ 32 ∧ (wrapped [] 4).inLen < 5 := by decide

theorem witness_UnstuffDependsOnTheViewAlone : let s := wrapped [(0, 0x31#8)] 7
    let s' := { wrapped [(0, 0x30#8)] 7 with out := [true] }
    s'.arg0 = s.arg0 ∧ s'.inLen = s.inLen ∧
    (∀ k, k < s.inLen / 3 * 3 → s'.bit .input k = s.bit .input k) ∧ 2 ≤ 3 ∧ 3 ≤ 32 := by decide

theorem witness_UnstuffDependsOnTheViewAlone_width : let s := aOut
    let s' := { aOut with out := [true] }
    s'.arg0 = s.arg0 ∧ s'.inLen = s.inLen ∧ (∀ k, k < s.inLen / 33 * 33 → s'.bit .input k = s.bit .input k) ∧
    s'.out ≠ s.out ∧ 32 < 33 := ⟨rfl, rfl, fun _ _ => rfl, by decide, by decide⟩

theorem witness_UnstuffDependsOnTheViewAlone_frame : ∃ t, exec (.unstuff 4) aIn = .next t := ⟨_, rfl⟩

theorem witness_MessageWordCountRule_zero : 2 ≤ 4 ∧ 4 ≤ 32 ∧ aIn.arg0 = 0#32 := by decide

theorem witness_MessageWordCountRule_all :
    (let s := withArgs aIn 3#32 0; s.inLen / 4 ≤ s.arg0.toNat ∧ ∀ i, i < s.inLen / 4 →
      readBits (s.bit .input) (i * 4) 4 .msbf ≠ 0 ∧ readBits (s.bit .input) (i * 4) 4 .msbf ≠ 2 ^ 4 - 1) ∧
    (let s := withArgs (wrapped [(0, 0x30#8)] 8) 2#32 0; s.inLen / 4 ≤ s.arg0.toNat ∧ 1 < s.inLen / 4 ∧
      readBits (s.bit .input) (1 * 4) 4 .msbf = 0) := by decide

theorem witness_StuffedAndReservedDoNotOverlap : 2 ≤ 2 ∧ 2 ≤ 32 ∧ 3 < 2 ^ 2 ∧ 0 < 1 := by decide

theorem witness_ErrorsArePrecise : ∃ c s t, runCommand c s = .next t ∧ t.code ≠ 0#3 :=
  ⟨0x00000107#32, withArgs (wrapped [(0, 0x00#8)] 4) 1#32 0, _, rfl, by decide⟩

theorem witness_StatusErrIsSticky_command :
    (∃ t, runCommand 0x00000023#32 aIn = .next t ∧ t.code ≠ 0#3) ∧
    (∃ t, runCommand 0x00000002#32 aIn = .next t ∧ t.code = 0#3) := ⟨⟨_, rfl, by decide⟩, ⟨_, rfl, by decide⟩⟩

theorem witness_StatusErrIsSticky_write : let s := next1 { small with err := true } (.write 0x10#17 4 0x100#32)
    s.inputs = .access (.write 0x00010#17 4 0x100#32) :: [] ∧ s.err = true ∧ seen (step s) State.err = some false := by
  decide

theorem witness_StatusErrIsSticky_cleared : ∃ s t : State, step s = .next t ∧ s.err = true ∧ t.err = false :=
  ⟨next1 { small with err := true } (.write 0x10#17 4 0x100#32), _, rfl, rfl, by decide⟩

theorem witness_StatusWriteReachesErrAlone :
    (next1 small (.write 0x10#17 4 0xFF#32)).inputs = .access (.write 0x00010#17 4 0xFF#32) :: [] := rfl

theorem witness_CommandFrame : ∃ t, exec (.append 3) aOut = .next t := ⟨_, rfl⟩

theorem witness_CommandFrame_reading : ∃ t, exec (.read .output .msbf 3) aOut = .next t ∧
    Instr.read .output .msbf 3 ≠ .wrap ∧ Instr.read .output .msbf 3 ≠ .empty ∧
    (∀ n, Instr.read .output .msbf 3 ≠ .append n) ∧ ∀ w, Instr.read .output .msbf 3 ≠ .unstuff w :=
  ⟨_, rfl, by simp, by simp, by simp, by simp⟩

theorem witness_InChangesOnlyByWrapWindowAndReset :
    ∃ t, step (next1 aIn (.write 0x10005#17 1 0#32)) = .next t ∧ t.inLen ≠ aIn.inLen := ⟨_, rfl, by decide⟩

theorem witness_OutChangesOnlyByAppending :
    ∃ t, step (next1 aOut (.write 0#17 4 0xC3#32)) = .next t ∧ t.out ≠ aOut.out := ⟨_, rfl, by decide⟩

theorem witness_OutChangesOnlyByAppending_reset :
    ∃ t, step { aOut with inputs := [.reset []] } = .next t ∧ t.out ≠ aOut.out := ⟨_, rfl, by decide⟩

theorem witness_BitsOutsideTheViewHaveNoEffect : ∀ k, k < aIn.inLen →
    State.bit { aIn with inMem := [(0, 0x31#8), (1, 0xEF#8), (9, 1#8)] } .input k = aIn.bit .input k := by decide

theorem witness_LiveViewNeverChanges : ∃ s t : State, step s = .next t ∧ t.inLen ≠ 0 ∧
    ∀ rest, s.inputs ≠ .access (.write 0x00000#17 4 0x00000001#32) :: rest :=
  ⟨next1 aIn (.write 0#17 4 0x107#32), _, rfl, by decide, fun _ h => by simp [next1] at h⟩

theorem witness_RegisterReadsReturnTheirValue : ∀ o ∈ [0#17, 4#17, 8#17, 12#17, 16#17, 0x14#17, 0xFFFC#17],
    o.toNat < 0x10000 ∧ o.toNat % 4 = 0 := by
  simp only [List.forall_mem_cons, List.not_mem_nil, false_implies, implies_true, and_true]
  refine ⟨?_, ?_, ?_, ?_, ?_, ?_, ?_⟩ <;> decide

theorem witness_RegisterReadsReturnTheirValue_access (o : Offset) :
    (next1 aIn (.read o 4)).inputs = .access (.read o 4) :: [] := rfl

theorem witness_OperandRegistersHoldWhatIsWritten (v : Word) :
    ({ aIn with inputs := [.access (.write 4#17 4 v), .access (.write 0#17 4 0x107#32)] } : State).inputs
      = .access (.write 0x00004#17 4 v) :: .access (.write 0#17 4 0x107#32) :: [] ∧
    ({ aIn with inputs := [.access (.write 8#17 4 v), .access (.write 0#17 4 1#32)] } : State).inputs
      = .access (.write 0x00008#17 4 v) :: .access (.write 0#17 4 1#32) :: [] := ⟨rfl, rfl⟩

theorem witness_OperandRegistersHoldWhatIsWritten_back (v : Word) :
    ({ aIn with inputs := [.access (.write 4#17 4 v), .access (.read 4#17 4)] } : State).inputs
      = .access (.write 0x00004#17 4 v) :: .access (.read 0x00004#17 4) :: [] ∧
    ({ aIn with inputs := [.access (.write 8#17 4 v), .access (.read 8#17 4)] } : State).inputs
      = .access (.write 0x00008#17 4 v) :: .access (.read 0x00008#17 4) :: [] := ⟨rfl, rfl⟩

theorem witness_ResultAndReservedOffsetsIgnoreWrites_access (o : Offset) (v : Word) :
    (next1 aIn (.write o 4 v)).inputs = .access (.write o 4 v) :: [] := rfl

theorem witness_ResultAndReservedOffsetsIgnoreWrites : ∀ o ∈ [0xC#17, 0x14#17, 0xFFFC#17],
    o.toNat < 0x10000 ∧ o.toNat % 4 = 0 ∧
    (o.toNat = 0xC ∨ 0x14 ≤ o.toNat) := by
  simp only [List.forall_mem_cons, List.not_mem_nil, false_implies, implies_true, and_true]
  refine ⟨?_, ?_, ?_⟩ <;> decide

theorem witness_ResultAndReservedOffsetsIgnoreWrites_read :
    (next1 aIn (.read 0x14#17 4)).inputs = .access (.read 0x14#17 4) :: [] ∧ (0x14#17).toNat < 0x10000 ∧
    (0x14#17).toNat % 4 = 0 ∧ 0x14 ≤ (0x14#17).toNat := by decide

theorem witness_UnsupportedAccessGetsABusError :
    (next1 aIn (.read 4#17 2)).inputs = .access (.read 4#17 2) :: [] ∧
    (next1 aIn (.write 2#17 4 0#32)).inputs = .access (.write 2#17 4 0#32) :: [] ∧
    ((4#17).toNat < 0x10000 ∧ (2 ≠ 4 ∨ (4#17).toNat % 4 ≠ 0)) ∧ (2#17).toNat % 4 ≠ 0 ∧
    (0x10000 ≤ (0x10000#17).toNat ∧ 4 ≠ 1) := by decide

theorem witness_SupportedAccessesGetNoBusError : ∃ t, (next1 aIn (.read 0x1FFFF#17 1)).noBusError ∧
    0x10000 ≤ (0x1FFFF#17).toNat ∧ step (next1 aIn (.read 0x1FFFF#17 1)) = .next t :=
  ⟨_, by simp [State.noBusError, next1, aIn, small, State.reset], by decide, rfl⟩

theorem witness_SupportedAccessesGetNoBusError_register : ∃ t, (next1 aIn (.write 0xFFFC#17 4 1#32)).noBusError ∧
    (0xFFFC#17).toNat < 0x10000 ∧ (0xFFFC#17).toNat % 4 = 0 ∧ step (next1 aIn (.write 0xFFFC#17 4 1#32)) = .next t :=
  ⟨_, by simp [State.noBusError, next1, aIn, small, State.reset], by decide, by decide, rfl⟩

theorem witness_WindowWriteStoresAndDropsTheView : let s := next1 aIn (.write 0x1000F#17 1 7#32)
    Memory.wf s.params s.inMem ∧ s.inputs = .access (.write 0x1000F#17 1 7#32) :: [] ∧
    (0x1000F#17).toNat = 0x10000 + 15 ∧ 15 < s.params.inBytes := by decide

theorem witness_UnbackedWindowReadsZeroIgnoresWrites :
    0x10000 + aIn.params.inBytes ≤ (0x10010#17).toNat ∧
    (next1 aIn (.write 0x10010#17 1 7#32)).inputs = .access (.write 0x10010#17 1 7#32) :: [] ∧
    (next1 aIn (.read 0x10010#17 1)).inputs = .access (.read 0x10010#17 1) :: [] := by decide

theorem witness_WindowReadReturnsTheByte : (next1 aIn (.read 0x1000F#17 1)).inputs = .access (.read 0x1000F#17 1) :: [] ∧
    (0x1000F#17).toNat = 0x10000 + 15 ∧ 15 < aIn.params.inBytes := by decide

theorem witness_OnlyTheListedAccessesHaveSideEffects : let a := HostAccess.write 0x10#17 4 0xFF#32
    (next1 aIn a).inputs = .access a :: [] ∧ (∀ c, a ≠ .write 0x00000#17 4 c) ∧ (∀ v, a ≠ .write 0x00004#17 4 v) ∧
    (∀ v, a ≠ .write 0x00008#17 4 v) ∧ (∀ v : Word, v.getLsbD 8 = true → a ≠ .write 0x00010#17 4 v) ∧
    (∀ o v k, a = .write o 1 v → o.toNat = 0x10000 + k → (next1 aIn a).params.inBytes ≤ k) := by
  refine ⟨rfl, fun c h => ?_, fun v h => ?_, fun v h => ?_, fun v hv h => ?_, fun o v k h => ?_⟩
  · simp at h
  · simp at h
  · simp at h
  · simp at h; subst h; revert hv; decide
  · simp at h

theorem witness_OnlyTheListedAccessesHaveSideEffects_twice :
    ({ aIn with inputs := [.access (.read 0xC#17 4), .access (.read 0xC#17 4)] } : State).inputs
      = .access (.read 0xC#17 4) :: .access (.read 0xC#17 4) :: [] := rfl

theorem witness_AssembledCommandsDecode : (Instr.append 63).wellFormed = true ∧ 63 < 64 := by decide

/-- Another CWU with the observation of A-IN: its draw holds what A-IN's host wrote. -/
def aInDrawn : State :=
  { aIn with
    inMem := []
    params := { aIn.params with sramInit := 0x31#8 :: 0xE0#8 :: List.replicate 14 0xA5#8 } }

theorem witness_NoStateBeyondTheObservation : aInDrawn.observe = aIn.observe ∧ aInDrawn ≠ aIn ∧
    aInDrawn.params.inBytes = aIn.params.inBytes ∧ aInDrawn.params.outBits = aIn.params.outBits ∧
    aInDrawn.inputs = aIn.inputs ∧ Memory.wf aIn.params aIn.inMem ∧ Memory.wf aInDrawn.params aInDrawn.inMem := by
  decide

theorem witness_ResetStateAsTheSpecGivesIt : 0 < Config.inBytes := Nat.succ_pos _

theorem witness_ResetInputPutsTheResetState :
    ({ aOut with inputs := [.reset [.write 0#17 4 0x107#32]] } : State).inputs
      = .reset [.write 0#17 4 0x107#32] :: [] := rfl

theorem witness_RightAfterResetCommandsAreUsable : 1 ≤ 1 ∧ 32 ≤ 32 ∧ 2 ≤ 2 ∧ 8 ≤ Config.outBits :=
  ⟨by decide, by decide, by decide, by unfold Config.outBits Config.inBytes; omega⟩

theorem witness_RightAfterResetCommandsAreUsable_wrap :
    ((1#32).toNat ≤ Config.inBytes ∧ (8#32).toNat ≤ 8 * (1#32).toNat) ∧ 8 * (1#32).toNat < (9#32).toNat ∧
    Config.inBytes < (65537#32).toNat := by
  have h := Config.inBytesLessOne.isLt
  refine ⟨⟨Nat.succ_pos _, by decide⟩, by decide, ?_⟩
  simp [Config.inBytes]; omega

theorem witness_EveryStepKeepsTheInvariant : ∃ s t : State, s.Inv ∧ step s = .next t ∧ t ≠ s :=
  ⟨next1 aIn (.write 0x10005#17 1 0#32), _, ⟨legalParams_small, by decide, by decide, by decide, by decide⟩, rfl, by decide⟩

theorem witness_CommandsKeepTheBufferBounds : LegalParams aOut.params ∧ aOut.inLen ≤ 8 * aOut.params.inBytes ∧
    aOut.out.length ≤ aOut.params.outBits := ⟨legalParams_small, by decide, by decide⟩

end Sys2Proof.Tests
end

section
/-!
PROOFS. The invariant holds at reset and every step keeps it (R12, R13, R28, R35): one rule for each way a state
comes about, the lemma that every ending of a command keeps the invariant, and the step; then the aperture (R58).
-/

namespace Sys2Proof.Machine

open Sys2Proof

/-! ## The free parameters are legal (R12, R13, R36) -/

theorem legalParams_config : LegalParams Config.params := by
  have hin : Config.inBytes ≤ 65536 := Config.inBytesLessOne.isLt
  have hspare := Config.outBitsSpare.isLt
  exact
    { inBytes_pos := Nat.succ_pos _
      inBytes_le := hin
      outBits_ge := Nat.le_add_right _ _
      outBits_le := by
        show 8 * Config.inBytes + Config.outBitsSpare.val ≤ 2 ^ 24
        omega
      sramInit_length := Config.inSramInit.length_toList }

/-! ## What each update of the state needs to keep the invariant -/

section
variable {s : State}

/-- 8 * IN_BYTES <= OUT_BITS (R13), so what fits IN fits OUT (R162). -/
theorem State.Inv.inLen_le_outBits (h : s.Inv) : s.inLen ≤ s.params.outBits :=
  h.inLen_le.trans h.params_legal.outBits_ge

theorem State.Inv.setInputs (h : s.Inv) (es : List HostEvent) : (s.setInputs es).Inv := { h with }

theorem State.Inv.respond (h : s.Inv) (r : Response) : (s.respond r).Inv := { h with }

theorem State.Inv.setArg0 (h : s.Inv) (v : Word) : (s.setArg0 v).Inv := { h with }

theorem State.Inv.setArg1 (h : s.Inv) (v : Word) : (s.setArg1 v).Inv := { h with }

theorem State.Inv.writeStatus (h : s.Inv) (v : Word) : (s.writeStatus v).Inv := { h with }

theorem State.Inv.complete (h : s.Inv) (r : Nat) : (s.complete r).Inv := { h with code_le := Nat.zero_le 4 }

theorem State.Inv.raise (h : s.Inv) (e : ErrorKind) : (s.raise e).Inv := { h with code_le := e.code_le }

theorem State.Inv.setInLen (h : s.Inv) {l : Nat} (hl : l ≤ 8 * s.params.inBytes) : (s.setInLen l).Inv :=
  { h with inLen_le := hl }

theorem State.Inv.setOut (h : s.Inv) {bits : Bits} (hb : bits.length ≤ s.params.outBits) : (s.setOut bits).Inv :=
  { h with outLen_le := hb }

theorem State.Inv.appendOut (h : s.Inv) {bits : Bits} (hb : s.outLen + bits.length ≤ s.params.outBits) :
    (s.appendOut bits).Inv :=
  { h with outLen_le := (State.appendOut_outLen s bits).trans_le hb }

/-- A window write keeps the canonical form and at most drops the view (R61, R62). -/
theorem State.Inv.writeWindow (h : s.Inv) (a : Nat) (v : Byte) : (s.writeWindow a v).Inv := by
  obtain ⟨ha, hw⟩ | ⟨-, hw⟩ := s.writeWindow_cases a v
  · rw [hw]
    exact { h with inLen_le := Nat.zero_le _, inMem_wf := Memory.wf_write h.inMem_wf ha v }
  · rwa [hw]

/-- Reset keeps the parameters and the IN SRAM; everything else is 0 (R210, R211). -/
theorem State.Inv.assertReset (h : s.Inv) : s.assertReset.Inv :=
  { h with inLen_le := Nat.zero_le _, outLen_le := Nat.zero_le _, code_le := Nat.zero_le 4 }

end

/-! ## Commands, accesses and steps -/

/-- However a command ends, it keeps the invariant (R35). -/
theorem Ending.inv {s t : State} (h : Ending s t) (hs : s.Inv) : t.Inv := by
  cases h with
  | error e _ => exact hs.raise e
  | rejected => exact (hs.setOut (Nat.zero_le _)).raise _
  | view l r hl => exact (hs.setInLen hl).complete r
  | fresh bits r hb => exact (hs.setOut (hb.trans hs.inLen_le_outBits)).complete r
  | appended bits r hb => exact (hs.appendOut hb).complete r
  | reported r => exact hs.complete r

theorem runCommand_inv {c : Word} {s t : State} (h : runCommand c s = .next t) (hs : s.Inv) : t.Inv := by
  obtain hend | rfl := runCommand_ending h
  · exact hend.inv hs
  · exact hs.raise _

theorem performAccess_inv {a : HostAccess} {s t : State} (h : performAccess a s = .next t) (hs : s.Inv) :
    t.Inv := by
  obtain ⟨u, r, rfl, hu⟩ := performAccess_cases h
  suffices u.Inv from this.respond r
  obtain rfl | ⟨c, -, hc⟩ | ⟨v, -, rfl⟩ | ⟨v, -, rfl⟩ | ⟨v, -, rfl⟩ | ⟨o, v, k, -, -, -, rfl⟩ := hu
  · exact hs
  · exact runCommand_inv hc hs
  · exact hs.setArg0 v
  · exact hs.setArg1 v
  · exact hs.writeStatus v
  · exact hs.writeWindow k _

theorem step_inv {s t : State} (h : step s = .next t) (hs : s.Inv) : t.Inv := by
  obtain ⟨-, rfl⟩ | ⟨held, es, -, rfl⟩ | ⟨a, es, -, ha⟩ := step_cases h
  · exact hs
  · exact (hs.setInputs es).assertReset
  · exact performAccess_inv ha (hs.setInputs es)

/-- Settles O59, by the cases of a step and the ending of the command it may run. -/
theorem everyStepKeepsTheInvariant : Obligations.EveryStepKeepsTheInvariant :=
  fun _ _ hs h => step_inv h hs

/-- Settles O58: the free parameters are legal, and nothing is listed or held yet. -/
theorem resetStateMeetsTheInvariant : Obligations.ResetStateMeetsTheInvariant where
  params_legal := legalParams_config
  inLen_le := Nat.zero_le _
  outLen_le := Nat.zero_le _
  code_le := Nat.zero_le 4
  inMem_wf := Memory.wf_nil _

/-! ## The aperture (R15, R58) -/

/-- A distance below 2^17 is the offset's value exactly when the offset is the distance as 17 bits. -/
theorem ofNat_eq_offset_iff {d : Nat} (hd : d < apertureBytes) (o : Offset) :
    BitVec.ofNat 17 d = o ↔ d = o.toNat := by
  rw [← BitVec.toNat_inj, BitVec.toNat_ofNat, Nat.mod_eq_of_lt hd]

/-- Settles O54, by whether the address is in the aperture. -/
theorem apertureIs128KiBFromBlockBase : Obligations.ApertureIs128KiBFromBlockBase := by
  intro p address o
  have ho : o.toNat < apertureBytes := o.isLt
  unfold offsetOf
  split
  · rw [Option.some_inj, ofNat_eq_offset_iff (by omega)]
    omega
  · simp only [reduceCtorEq, false_iff]
    omega

end Sys2Proof.Machine
end

section
/-!
PROOFS. What a step does with an aligned 32-bit access to the register block, said once for reads and once for
writes; then each register (R22 to R31): STATUS as a number, the operand registers, RESULT and the reserved
offsets, and the command a CMD write runs.
-/

namespace Sys2Proof.Machine

open Sys2Proof

/-! ## One step, one register access -/

section
variable {s : State} {o : Offset} {rest : List HostEvent}

/-- A step that reads a register records its value and changes nothing else (R63). -/
theorem step_readReg (h : s.inputs = .access (.read o 4) :: rest) (ho : o.toNat < 0x10000)
    (h4 : o.toNat % 4 = 0) :
    step s = .next ((s.setInputs rest).respond (.word (s.readReg (regAt o.toNat)))) := by
  rw [step_event h]
  simp only [performEvent, performAccess, targetOf_reg ho h4, State.readAt]
  rfl

/-- A step that writes a register writes it and records the OK response (R64). -/
theorem step_writeReg {v : Word} (h : s.inputs = .access (.write o 4 v) :: rest) (ho : o.toNat < 0x10000)
    (h4 : o.toNat % 4 = 0) :
    step s = answer .written (writeReg (regAt o.toNat) v (s.setInputs rest)) := by
  rw [step_event h]
  simp only [performEvent, performAccess, targetOf_reg ho h4, writeAt]

end

/-! ## STATUS as a number (R27) -/

theorem statusWord_eq_ofNat (code : BitVec 3) (err : Bool) :
    statusWord code err = BitVec.ofNat 32 (code.toNat + 256 * err.toNat) := by
  revert code err
  decide

theorem statusWord_toNat (code : BitVec 3) (err : Bool) :
    (statusWord code err).toNat = code.toNat + 256 * err.toNat := by
  have hcode := code.isLt
  have herr := err.toNat_le
  rw [statusWord_eq_ofNat, BitVec.toNat_ofNat]
  omega

/-- STATUS shows all of CODE and ERR. -/
theorem statusWord_inj {code code' : BitVec 3} {err err' : Bool}
    (h : statusWord code err = statusWord code' err') : code = code' ∧ err = err' := by
  have hnat := congrArg BitVec.toNat h
  rw [statusWord_toNat, statusWord_toNat] at hnat
  have hcode := code.isLt
  have hcode' := code'.isLt
  exact ⟨BitVec.eq_of_toNat_eq (by omega), Function.LeftInverse.injective Bool.ofNat_toNat (by omega)⟩

/-! ## The register map (R22, R31) -/

theorem regAt_reserved {n : Nat} (h : 0x14 ≤ n) : regAt n = .reserved := by
  unfold regAt
  split
  case h_6 => rfl
  all_goals omega

/-- The value read at an offset of the register block, by the offset. -/
theorem State.readReg_regAt (s : State) (n : Nat) :
    s.readReg (regAt n) =
      if n = 0x4 then s.arg0
      else if n = 0x8 then s.arg1
      else if n = 0xC then s.result
      else if n = 0x10 then BitVec.ofNat 32 (s.code.toNat + 256 * s.err.toNat)
      else 0#32 := by
  unfold regAt
  split <;> simp_all [State.readReg, State.status, statusWord_eq_ofNat]

/-- Settles O43, by the step rule for reads and the value at each offset. -/
theorem registerReadsReturnTheirValue : Obligations.RegisterReadsReturnTheirValue := by
  intro s o rest h ho h4
  rw [step_readReg h ho h4, State.readReg_regAt]
  rfl

/-- Settles O45: RESULT and the reserved offsets are the two registers a write passes over. -/
theorem resultAndReservedOffsetsIgnoreWrites : Obligations.ResultAndReservedOffsetsIgnoreWrites := by
  intro s o rest ho h4
  refine ⟨fun v h hreg => ?_, fun h hres => ?_⟩
  · rw [step_writeReg h ho h4]
    obtain hresult | hres := hreg
    · rw [hresult]; rfl
    · rw [regAt_reserved hres]; rfl
  · rw [step_readReg h ho h4, regAt_reserved hres]
    rfl

/-- Settles O37: the write reaches ERR and nothing else. -/
theorem statusWriteReachesErrAlone : Obligations.StatusWriteReachesErrAlone :=
  fun s v _ h => ⟨errAfterWrite s.err v, step_writeReg h (by decide) (by decide)⟩

/-- A read right after a register write that takes answers what that register then reads as, in the state the
write made. -/
theorem step_writeReg_then_readReg {s u : State} {o : Offset} {v : Word} {rest : List HostEvent}
    (h : s.inputs = .access (.write o 4 v) :: .access (.read o 4) :: rest) (ho : o.toNat < 0x10000)
    (h4 : o.toNat % 4 = 0)
    (hu : writeReg (regAt o.toNat) v (s.setInputs (.access (.read o 4) :: rest)) = .next u)
    (hin : u.inputs = .access (.read o 4) :: rest) :
    ∃ t, step s = .next t ∧
      step t = .next (((u.respond .written).setInputs rest).respond
        (.word ((u.respond .written).readReg (regAt o.toNat)))) := by
  refine ⟨u.respond .written, ?_, step_readReg (by simpa using hin) ho h4⟩
  rw [step_writeReg h ho h4, hu, answer_next]

/-- Settles O44: a write to an operand register is its update of the state, and the read back then sees it. -/
theorem operandRegistersHoldWhatIsWritten : Obligations.OperandRegistersHoldWhatIsWritten := by
  refine ⟨fun s v rest => ⟨fun h => step_writeReg h (by decide) (by decide),
    fun h => step_writeReg h (by decide) (by decide)⟩, fun s v rest => ⟨fun h => ?_, fun h => ?_⟩⟩
  · obtain ⟨t, hw, hr⟩ := step_writeReg_then_readReg h (by decide) (by decide) rfl rfl
    refine ⟨t, hw, hr.trans ?_⟩
    simp [State.respond, State.setInputs, State.setArg0, State.readReg, regAt]
  · obtain ⟨t, hw, hr⟩ := step_writeReg_then_readReg h (by decide) (by decide) rfl rfl
    refine ⟨t, hw, hr.trans ?_⟩
    simp [State.respond, State.setInputs, State.setArg1, State.readReg, regAt]

/-! ## The command a CMD write runs (R23, R90) -/

theorem runCommand_of_decode {c : Word} {i : Instr} (h : decode c = .ok i) (s : State) :
    runCommand c s = exec i s := by
  simp only [runCommand, h]

/-- Settles O7: the register written is CMD, and its word's command is run. -/
theorem stepRunsTheDecodedCommand : Obligations.StepRunsTheDecodedCommand := by
  intro s c i rest h hdec
  have hstep : step s = answer .written (runCommand c (s.setInputs rest)) :=
    step_writeReg h (by decide) (by decide)
  rw [hstep, runCommand_of_decode hdec]
  rfl

/-! ## The reset state (R210) -/

/-- Settles O55: nothing is listed in the IN SRAM yet, so each byte is the draw's. -/
theorem resetStateAsTheSpecGivesIt : Obligations.ResetStateAsTheSpecGivesIt := by
  refine ⟨rfl, rfl, rfl, rfl, rfl, by decide, rfl, rfl, rfl, fun a ha => ?_⟩
  have hread : State.reset.inByte a = Config.inSramInit.toList.getD a 0#8 := State.inByte_backed ha
  rw [hread, List.getD_eq_getElem _ _ (by simpa using ha), Vector.getElem_toList]

end Sys2Proof.Machine
end

section
/-!
PROOFS. What a command leaves as it is (R24, R25, R113, R128), what it does to ERR (R29) and to the two buffer
bounds (R35): from the endings a command can have, and instruction by instruction where the frame depends on the
instruction.
-/

namespace Sys2Proof.Machine

open Sys2Proof

/-! ## However a command ends -/

section
variable {s t : State}

/-- A command reaches RESULT, STATUS, in_len and OUT and no other field. -/
theorem Ending.frame (h : Ending s t) :
    t = { s with result := t.result, code := t.code, err := t.err, inLen := t.inLen, out := t.out } := by
  cases h <;> rfl

/-- ERR after a command is what its CODE makes of the earlier ERR (R29). -/
theorem Ending.err_eq (h : Ending s t) : t.err = errAfter s.err t.code := by
  cases h <;> rfl

/-- A view that fits the IN SRAM, and an OUT that fits the OUT SRAM, stay so; what UNSTUFF makes of IN fits OUT,
since 8 * IN_BYTES <= OUT_BITS (R13, R162). -/
theorem Ending.bounds (h : Ending s t) (hp : LegalParams s.params) (hin : s.inLen ≤ 8 * s.params.inBytes)
    (hout : s.out.length ≤ s.params.outBits) :
    t.inLen ≤ 8 * s.params.inBytes ∧ t.out.length ≤ s.params.outBits := by
  cases h with
  | error e _ => exact ⟨hin, hout⟩
  | rejected => exact ⟨hin, Nat.zero_le _⟩
  | view l r hl => exact ⟨hl, hout⟩
  | fresh bits r hb => exact ⟨hin, hb.trans (hin.trans hp.outBits_ge)⟩
  | appended bits r hb => exact ⟨hin, by simpa using hb⟩
  | reported r => exact ⟨hin, hout⟩

/-- ERR after a CMD write, ILLEGAL included (R29, R186). -/
theorem runCommand_err {c : Word} (h : runCommand c s = .next t) : t.err = errAfter s.err t.code := by
  obtain hend | rfl := runCommand_ending h
  · exact hend.err_eq
  · rfl

end

/-- Settles O60: an ILLEGAL word touches no buffer, and every ending of a command keeps both bounds. -/
theorem commandsKeepTheBufferBounds : Obligations.CommandsKeepTheBufferBounds := by
  intro c s hp hin hout
  obtain ⟨t, ht⟩ := runCommand_next c s
  refine ⟨t, ht, ?_⟩
  obtain hend | rfl := runCommand_ending ht
  · exact hend.bounds hp hin hout
  · exact ⟨hin, hout⟩

/-! ## What depends on the instruction -/

section
variable {s t : State}

/-- READ, LENGTH and BITAT reach RESULT and STATUS alone (R119, R122, R126). -/
theorem exec_reading_frame {i : Instr}
    (hi : (∃ b o n, i = .read b o n) ∨ (∃ b, i = .length b) ∨ (∃ b, i = .bitat b)) (h : exec i s = .next t) :
    t = { s with result := t.result, code := t.code, err := t.err } := by
  obtain ⟨b, o, n, rfl⟩ | ⟨b, rfl⟩ | ⟨b, rfl⟩ := hi
  · obtain ⟨-, rfl⟩ | ⟨-, -, rfl⟩ | ⟨-, -, rfl⟩ := execRead_cases h <;> rfl
  · obtain rfl := execLength_cases h; rfl
  · obtain ⟨-, rfl⟩ | ⟨-, rfl⟩ := execBitat_cases h <;> rfl

/-- Only WRAP changes in_len (R128). -/
theorem exec_inLen {i : Instr} (h : exec i s = .next t) (hi : i ≠ .wrap) : t.inLen = s.inLen := by
  cases i with
  | wrap => exact absurd rfl hi
  | empty => obtain rfl := execEmpty_cases h; rfl
  | append n => obtain ⟨-, rfl⟩ | ⟨-, -, rfl⟩ | ⟨-, -, rfl⟩ := execAppend_cases h <;> rfl
  | read b o n => rw [exec_reading_frame (.inl ⟨b, o, n, rfl⟩) h]
  | length b => rw [exec_reading_frame (.inr (.inl ⟨b, rfl⟩)) h]
  | bitat b => rw [exec_reading_frame (.inr (.inr ⟨b, rfl⟩)) h]
  | unstuff w => obtain ⟨-, rfl⟩ | ⟨-, -, -, rfl⟩ | ⟨-, -, bits, -, rfl⟩ := execUnstuff_cases h <;> rfl

/-- Only EMPTY, APPEND and UNSTUFF change OUT (R129). -/
theorem exec_out {i : Instr} (h : exec i s = .next t) (hempty : i ≠ .empty) (happend : ∀ n, i ≠ .append n)
    (hunstuff : ∀ w, i ≠ .unstuff w) : t.out = s.out := by
  cases i with
  | wrap => obtain ⟨rfl, -⟩ | ⟨-, -, rfl⟩ := execWrap_cases h <;> rfl
  | empty => exact absurd rfl hempty
  | append n => exact absurd rfl (happend n)
  | read b o n => rw [exec_reading_frame (.inl ⟨b, o, n, rfl⟩) h]
  | length b => rw [exec_reading_frame (.inr (.inl ⟨b, rfl⟩)) h]
  | bitat b => rw [exec_reading_frame (.inr (.inr ⟨b, rfl⟩)) h]
  | unstuff w => exact absurd rfl (hunstuff w)

/-- APPEND only adds to OUT (R52). -/
theorem exec_append_take {n : Nat} (h : exec (.append n) s = .next t) : t.out.take s.out.length = s.out := by
  obtain ⟨-, rfl⟩ | ⟨-, -, rfl⟩ | ⟨-, -, rfl⟩ := execAppend_cases h
  · exact List.take_length
  · exact List.take_length
  · exact List.take_left

end

/-- Settles O38, from the frame of every ending and the frames by instruction. -/
theorem commandFrame : Obligations.CommandFrame := by
  intro i s t h
  have hframe := (exec_ending h).frame
  have hbyte : ∀ a, t.inByte a = s.inByte a := by
    rw [hframe]
    exact fun _ => rfl
  have happend : ∀ n, i = .append n → t.out.take s.out.length = s.out := by
    rintro n rfl
    exact exec_append_take h
  refine ⟨?_, ?_, ?_, hbyte, ?_, ?_, ?_, exec_inLen h, exec_out h, happend⟩ <;> rw [hframe]

/-! ## ERR (R29) -/

/-- A step clears ERR only by a write to STATUS with bit 8 = 1 or by the reset input. -/
theorem step_clears_err {s t : State} (h : step s = .next t) (hs : s.err = true) (ht : t.err = false) :
    ∃ rest, (∃ held, s.inputs = .reset held :: rest) ∨
      (∃ v : Word, s.inputs = .access (.write 0x00010#17 4 v) :: rest ∧ v.getLsbD 8 = true) := by
  obtain ⟨-, rfl⟩ | ⟨held, es, hin, -⟩ | ⟨a, es, hin, ha⟩ := step_cases h
  · simp [hs] at ht
  · exact ⟨es, .inl ⟨held, hin⟩⟩
  · obtain ⟨u, r, rfl, hu⟩ := performAccess_cases ha
    obtain rfl | ⟨c, -, hc⟩ | ⟨v, -, rfl⟩ | ⟨v, -, rfl⟩ | ⟨v, rfl, rfl⟩ | ⟨o, v, k, -, -, hk, rfl⟩ := hu
    · simp [hs] at ht
    · simp [runCommand_err hc, errAfter, hs] at ht
    · simp [hs] at ht
    · simp [hs] at ht
    · exact ⟨es, .inr ⟨v, hin, by simpa [errAfterWrite, hs] using ht⟩⟩
    · obtain ⟨-, hw⟩ | ⟨-, hw⟩ := (s.setInputs es).writeWindow_cases k (v.setWidth 8) <;>
        simp [hw, hs] at ht

/-- Settles O36, from ERR after a command, the STATUS write, and the cases of a step. -/
theorem statusErrIsSticky : Obligations.StatusErrIsSticky := by
  refine ⟨fun c s t h => ?_, fun s v rest h => ?_, fun s t h hs ht => step_clears_err h hs ht, rfl⟩
  · rw [runCommand_err h]
    exact ⟨fun hc => by simp [errAfter, hc], fun hc => by simp [hc]⟩
  · refine ⟨_, step_writeReg h (by decide) (by decide), ?_⟩
    show errAfterWrite s.err v = _
    rw [errAfterWrite]
    cases v.getLsbD 8 <;> simp

end Sys2Proof.Machine
end

section
/-!
PROOFS. The CWU has no state beyond the observation (R38, R220). Two states with the same observation are one
state over two IN SRAMs that hold the same bytes in two ways, as cells and as draw; the lemma of each operation
says that it acts on both alike.
-/

namespace Sys2Proof.Machine

open Sys2Proof

/-! ## Two IN SRAMs with the same bytes -/

/-- The IN SRAM `m'` over the draw of `p'` holds the bytes that `m` holds over the draw of `p`, in CWUs of the
same sizes. -/
structure SramAlike (p : Params) (m : Memory) (p' : Params) (m' : Memory) : Prop where
  inBytes_eq : p'.inBytes = p.inBytes
  outBits_eq : p'.outBits = p.outBits
  read_eq : ∀ a, a < p.inBytes → Memory.read p' m' a = Memory.read p m a

/-- A byte written to both leaves them alike (R61). -/
theorem SramAlike.write {p p' : Params} {m m' : Memory} (h : SramAlike p m p' m') (hm : Memory.Rising m)
    (hm' : Memory.Rising m') (a : Nat) (v : Byte) :
    SramAlike p (Memory.write p m a v) p' (Memory.write p' m' a v) :=
  { h with read_eq := fun b hb => by rw [Memory.read_write hm', Memory.read_write hm, h.read_eq b hb] }

/-- The state with another IN SRAM and the parameters that hold its draw. -/
def State.withSram (s : State) (p : Params) (m : Memory) : State := { s with params := p, inMem := m }

section
variable (s : State) (p : Params) (m : Memory)

@[simp] theorem State.withSram_operand0 : (s.withSram p m).operand0 = s.operand0 := rfl
@[simp] theorem State.withSram_inLen : (s.withSram p m).inLen = s.inLen := rfl
@[simp] theorem State.withSram_outLen : (s.withSram p m).outLen = s.outLen := rfl
@[simp] theorem State.withSram_len (b : Buf) : (s.withSram p m).len b = s.len b := by cases b <;> rfl
@[simp] theorem State.withSram_params : (s.withSram p m).params = p := rfl
@[simp] theorem State.withSram_readReg (r : Reg) : (s.withSram p m).readReg r = s.readReg r := by cases r <;> rfl

end

section
variable {s : State} {p : Params} {m : Memory} (h : SramAlike s.params s.inMem p m)
include h

theorem SramAlike.inByte (a : Nat) : (s.withSram p m).inByte a = s.inByte a := by
  by_cases ha : a < s.params.inBytes
  · rw [State.inByte_backed ha, ← h.read_eq a ha]
    exact State.inByte_backed (h.inBytes_eq ▸ ha)
  · rw [State.inByte_unbacked (Nat.not_lt.1 ha)]
    exact State.inByte_unbacked (h.inBytes_eq ▸ Nat.not_lt.1 ha)

theorem SramAlike.bit (b : Buf) : (s.withSram p m).bit b = s.bit b := by
  cases b with
  | input => funext k; simp only [State.bit, State.inBit, h.inByte]
  | output => rfl

theorem SramAlike.words (w : Nat) : (s.withSram p m).words w = s.words w := by
  have hbit : (s.withSram p m).inBit = s.inBit := h.bit .input
  simp only [State.words, State.wordAt, hbit, State.withSram_inLen]

theorem SramAlike.observe : (s.withSram p m).observe = s.observe := by
  have hbytes : (s.withSram p m).inByte = s.inByte := funext h.inByte
  simp only [State.observe, hbytes, State.withSram_params, h.inBytes_eq]
  rfl

/-! ## Every operation acts on both alike -/

/-- A command does not tell the two apart: it sees the bytes and the sizes alone (R51). -/
theorem exec_withSram (i : Instr) :
    ∃ t, exec i s = .next t ∧ exec i (s.withSram p m) = .next (t.withSram p m) := by
  cases i with
  | wrap =>
    simp only [exec, execWrap, State.withSram_params, h.inBytes_eq]
    by_cases hcount : s.params.inBytes < s.operand1
    · exact ⟨_, if_pos hcount, if_pos hcount⟩
    by_cases hlen : 8 * s.operand1 < s.operand0
    · exact ⟨_, (if_neg hcount).trans (if_pos hlen), (if_neg hcount).trans (if_pos hlen)⟩
    · exact ⟨_, (if_neg hcount).trans (if_neg hlen), (if_neg hcount).trans (if_neg hlen)⟩
  | empty => exact ⟨_, rfl, rfl⟩
  | append n =>
    simp only [exec, execAppend, State.withSram_params, State.withSram_operand0, State.withSram_outLen,
      h.outBits_eq]
    split_ifs <;> exact ⟨_, rfl, rfl⟩
  | read b o n =>
    simp only [exec, execRead, State.withSram_len, State.withSram_operand0, h.bit]
    split_ifs <;> exact ⟨_, rfl, rfl⟩
  | length b => cases b <;> exact ⟨_, rfl, rfl⟩
  | bitat b =>
    simp only [exec, execBitat, State.withSram_len, State.withSram_operand0, h.bit]
    split_ifs <;> exact ⟨_, rfl, rfl⟩
  | unstuff w =>
    simp only [exec, execUnstuff, State.withSram_operand0, h.words]
    split
    · exact ⟨_, rfl, rfl⟩
    · split <;> exact ⟨_, rfl, rfl⟩

theorem runCommand_withSram (c : Word) :
    ∃ t, runCommand c s = .next t ∧ runCommand c (s.withSram p m) = .next (t.withSram p m) := by
  cases hc : decode c with
  | ok i =>
    rw [runCommand_of_decode hc, runCommand_of_decode hc]
    exact exec_withSram h i
  | error e =>
    simp only [runCommand, hc]
    exact ⟨_, rfl, rfl⟩

theorem SramAlike.readAt (x : Target) : (s.withSram p m).readAt x = s.readAt x := by
  cases x with
  | reg r => simp only [State.readAt, State.withSram_readReg]
  | window a => simp only [State.readAt, h.inByte]
  | unsupported => rfl

end

/-- Both outcomes are next states, the second the first over another IN SRAM, for the draw of `p`, that holds the
same bytes. -/
def OutcomesAlike (p : Params) (x y : Host.Outcome State Fault Refusal) : Prop :=
  ∃ t m, x = .next t ∧ y = .next (t.withSram p m) ∧ SramAlike t.params t.inMem p m

/-- A response recorded in both leaves them alike (R220). -/
theorem OutcomesAlike.answer {p : Params} {x y : Host.Outcome State Fault Refusal} (h : OutcomesAlike p x y)
    (r : Response) : OutcomesAlike p (Machine.answer r x) (Machine.answer r y) := by
  obtain ⟨t, m, rfl, rfl, ht⟩ := h
  exact ⟨t.respond r, m, rfl, rfl, ht⟩

/-- A command changes neither the IN SRAM nor the parameters (R128). -/
theorem runCommand_sram {c : Word} {s t : State} (h : runCommand c s = .next t) :
    t.params = s.params ∧ t.inMem = s.inMem := by
  obtain hend | rfl := runCommand_ending h
  · rw [hend.frame]; exact ⟨rfl, rfl⟩
  · exact ⟨rfl, rfl⟩

section
variable {s : State} {p : Params} {m : Memory} (h : SramAlike s.params s.inMem p m)
include h

theorem runCommand_alike (c : Word) : OutcomesAlike p (runCommand c s) (runCommand c (s.withSram p m)) := by
  obtain ⟨t, ht, ht'⟩ := runCommand_withSram h c
  obtain ⟨hparams, hmem⟩ := runCommand_sram ht
  exact ⟨t, m, ht, ht', by rwa [hparams, hmem]⟩

theorem writeReg_alike (r : Reg) (v : Word) :
    OutcomesAlike p (writeReg r v s) (writeReg r v (s.withSram p m)) := by
  cases r with
  | cmd => exact runCommand_alike h v
  | arg0 => exact ⟨s.setArg0 v, m, rfl, rfl, h⟩
  | arg1 => exact ⟨s.setArg1 v, m, rfl, rfl, h⟩
  | result => exact ⟨s, m, rfl, rfl, h⟩
  | status => exact ⟨s.writeStatus v, m, rfl, rfl, h⟩
  | reserved => exact ⟨s, m, rfl, rfl, h⟩

variable (hs : Memory.Rising s.inMem) (hm : Memory.Rising m)
include hs hm

/-- A window byte is stored in both or, unbacked, in neither (R61, R62). -/
theorem writeWindow_withSram (a : Nat) (v : Byte) :
    ∃ m', (s.withSram p m).writeWindow a v = (s.writeWindow a v).withSram p m' ∧
      SramAlike (s.writeWindow a v).params (s.writeWindow a v).inMem p m' := by
  simp only [State.writeWindow, State.withSram_params, h.inBytes_eq]
  split
  · exact ⟨_, rfl, h.write hs hm a v⟩
  · exact ⟨m, rfl, h⟩

theorem writeAt_alike (x : Target) (v : Word) :
    OutcomesAlike p (writeAt x v s) (writeAt x v (s.withSram p m)) := by
  cases x with
  | reg r => exact (writeReg_alike h r v).answer .written
  | window a =>
    obtain ⟨m', hw, halike⟩ := writeWindow_withSram h hs hm a (v.setWidth 8)
    refine ⟨_, m', rfl, ?_, halike⟩
    rw [writeAt, hw]
    rfl
  | unsupported => exact ⟨s.respond .busError, m, rfl, rfl, h⟩

theorem performAccess_alike (a : HostAccess) :
    OutcomesAlike p (performAccess a s) (performAccess a (s.withSram p m)) := by
  cases a with
  | read o width =>
    refine ⟨_, m, rfl, ?_, h⟩
    rw [performAccess, h.readAt]
    rfl
  | write o width v => exact writeAt_alike h hs hm (targetOf o width) v

theorem step_alike : OutcomesAlike p (step s) (step (s.withSram p m)) := by
  cases hin : s.inputs with
  | nil => exact ⟨s, m, step_idle hin, step_idle hin, h⟩
  | cons e es =>
    have hin' : (s.withSram p m).inputs = e :: es := hin
    rw [step_event hin, step_event hin']
    cases e with
    | reset held => exact ⟨(s.setInputs es).assertReset, m, rfl, rfl, h⟩
    | access a => exact performAccess_alike (s := s.setInputs es) h hs hm a

end

/-! ## Two states with the same observation -/

/-- With the same observation, events to come and sizes, one state is the other over its own IN SRAM, and the IN
SRAMs hold the same bytes (R220). -/
theorem eq_withSram_of_observe_eq {s s' : State} (h : s'.observe = s.observe)
    (hin : s'.params.inBytes = s.params.inBytes) (hout : s'.params.outBits = s.params.outBits)
    (hinputs : s'.inputs = s.inputs) :
    s' = s.withSram s'.params s'.inMem ∧ SramAlike s.params s.inMem s'.params s'.inMem := by
  obtain ⟨harg0, harg1, hresult, hstatus, hinLen, hbytes, -, hbits, hresponses⟩ := Observation.mk.inj h
  obtain ⟨hcode, herr⟩ := statusWord_inj hstatus
  refine ⟨?_, hin, hout, fun a ha => ?_⟩
  · rw [State.withSram, ← harg0, ← harg1, ← hresult, ← hcode, ← herr, ← hinLen, ← hbits, ← hinputs, ← hresponses]
  · rw [hin] at hbytes
    rw [← State.inByte_backed ha, ← State.inByte_backed (hin ▸ ha)]
    exact List.map_inj_left.1 hbytes a (List.mem_range.2 ha)

/-- Settles O53: the two states are one state over two IN SRAMs with the same bytes, a step keeps them so, and the
observation shows the bytes alone. -/
theorem noStateBeyondTheObservation : Obligations.NoStateBeyondTheObservation := by
  intro s s' hobs hin hout hinputs hwf hwf'
  obtain ⟨heq, halike⟩ := eq_withSram_of_observe_eq hobs hin hout hinputs
  obtain ⟨t, m, ht, ht', htalike⟩ := step_alike halike hwf.1 hwf'.1
  exact ⟨t, t.withSram s'.params m, ht, by rw [heq]; exact ht', htalike.observe⟩

end Sys2Proof.Machine
end

section
/-!
PROOFS. The host's accesses (R58 to R65): a step that reads, a step that writes and what an access reaches, said
once; then bus ERRORs, the window, and which accesses have side effects.
-/

namespace Sys2Proof.Machine

open Sys2Proof

/-! ## What a read sees -/

/-- A read does not see the events to come. -/
@[simp] theorem State.readAt_setInputs (s : State) (es : List HostEvent) (x : Target) :
    (s.setInputs es).readAt x = s.readAt x := by
  cases x with
  | reg r => cases r <;> rfl
  | window a => rfl
  | unsupported => rfl

/-- A read does not see the responses so far. -/
@[simp] theorem State.readAt_respond (s : State) (r : Response) (x : Target) :
    (s.respond r).readAt x = s.readAt x := by
  cases x with
  | reg r => cases r <;> rfl
  | window a => rfl
  | unsupported => rfl

/-! ## One step, one access -/

section
variable {s : State} {o : Offset} {width : Nat} {rest : List HostEvent}

/-- A step that reads records what the read reaches and changes nothing else (R63). -/
theorem step_read (h : s.inputs = .access (.read o width) :: rest) :
    step s = .next ((s.setInputs rest).respond (s.readAt (targetOf o width))) := by
  rw [← State.readAt_setInputs s rest]
  exact step_event h

/-- A step that writes is a write at what the access reaches (R64). -/
theorem step_write {v : Word} (h : s.inputs = .access (.write o width v) :: rest) :
    step s = writeAt (targetOf o width) v (s.setInputs rest) :=
  step_event h

end

/-- Every access answers a next state (R219, R221). -/
theorem performAccess_next (a : HostAccess) (s : State) : ∃ t, performAccess a s = .next t := by
  cases a with
  | read o width => exact ⟨_, rfl⟩
  | write o width v =>
    rw [performAccess]
    cases targetOf o width with
    | reg r =>
      cases r with
      | cmd =>
        obtain ⟨t, ht⟩ := runCommand_next v s
        exact ⟨_, congrArg (answer .written) ht⟩
      | _ => exact ⟨_, rfl⟩
    | window a => exact ⟨_, rfl⟩
    | unsupported => exact ⟨_, rfl⟩

/-! ## Bus ERRORs (R65, R193) -/

/-- An access of an unsupported width or alignment reaches nothing. -/
theorem targetOf_eq_unsupported_iff {o : Offset} {width : Nat} :
    targetOf o width = .unsupported ↔
      (o.toNat < 0x10000 ∧ (width ≠ 4 ∨ o.toNat % 4 ≠ 0)) ∨ (0x10000 ≤ o.toNat ∧ width ≠ 1) := by
  unfold targetOf
  split_ifs <;> simp only [false_iff, true_iff] <;> omega

/-- Settles O46: the access reaches nothing, so a read and a write alike record the bus ERROR and no more. -/
theorem unsupportedAccessGetsABusError : Obligations.UnsupportedAccessGetsABusError := by
  intro s o width v rest hbad h
  have htarget := targetOf_eq_unsupported_iff.2 hbad
  obtain h | h := h
  · rw [step_read h, htarget]
    rfl
  · rw [step_write h, htarget]
    rfl

/-- A register write records no response of its own. -/
theorem writeReg_responses {r : Reg} {v : Word} {s t : State} (h : writeReg r v s = .next t) :
    t.responses = s.responses := by
  cases r with
  | cmd =>
    obtain hend | rfl := runCommand_ending h
    · rw [hend.frame]
    · rfl
  | _ => cases h; rfl

/-- A write that reaches something records the OK response. -/
theorem writeAt_responses {x : Target} {v : Word} {s t : State} (hx : x ≠ .unsupported)
    (h : writeAt x v s = .next t) : t.responses = s.responses ++ [.written] := by
  cases x with
  | reg r =>
    obtain ⟨u, hu, rfl⟩ := answer_eq_next h
    rw [State.respond_responses, writeReg_responses hu]
  | window a =>
    cases h
    obtain ⟨-, hw⟩ | ⟨-, hw⟩ := s.writeWindow_cases a (v.setWidth 8) <;> rw [hw] <;> rfl
  | unsupported => exact absurd rfl hx

/-- A read of anything an access can reach answers no bus ERROR. -/
theorem State.readAt_ne_busError (s : State) {x : Target} (hx : x ≠ .unsupported) : s.readAt x ≠ .busError := by
  cases x with
  | reg r => exact Response.noConfusion
  | window a => exact Response.noConfusion
  | unsupported => exact absurd rfl hx

/-- Settles O47: a supported access reaches something, so the one response it adds is no bus ERROR. -/
theorem supportedAccessesGetNoBusError : Obligations.SupportedAccessesGetNoBusError := by
  intro s t a o width rest h ha hok hs ht
  have hx : targetOf o width ≠ .unsupported := fun hx => by
    have := targetOf_eq_unsupported_iff.1 hx
    omega
  suffices ∃ r, r ≠ .busError ∧ t.responses = s.responses ++ [r] by
    obtain ⟨r, hr, hresponses⟩ := this
    simpa [State.noBusError, hresponses, hr.symm] using hs
  obtain rfl | ⟨v, rfl⟩ := ha
  · rw [step_read h] at ht
    cases ht
    exact ⟨_, s.readAt_ne_busError hx, rfl⟩
  · rw [step_write h] at ht
    exact ⟨.written, Response.noConfusion, writeAt_responses (s := s.setInputs rest) hx ht⟩

/-! ## The window (R59, R61, R62) -/

/-- An 8-bit access past the backed bytes reaches an unbacked byte of the window. -/
theorem targetOf_unbacked {p : Params} {o : Offset} (h : 0x10000 + p.inBytes ≤ o.toNat) :
    ∃ k, p.inBytes ≤ k ∧ targetOf o 1 = .window k :=
  ⟨o.toNat - 0x10000, by omega, targetOf_window (by omega)⟩

/-- Settles O50: the access reaches byte a. -/
theorem windowReadReturnsTheByte : Obligations.WindowReadReturnsTheByte := by
  intro s o a rest h ho _
  rw [step_read h, targetOf_window ho]
  rfl

/-- A write of an unbacked window byte is ignored (R62). -/
theorem State.writeWindow_unbacked {s : State} {a : Nat} (h : s.params.inBytes ≤ a) (v : Byte) :
    s.writeWindow a v = s := if_neg (Nat.not_lt.2 h)

/-- A write of a backed window byte stores it and drops the view (R61). -/
theorem State.writeWindow_backed {s : State} {a : Nat} (h : a < s.params.inBytes) (v : Byte) :
    s.writeWindow a v = { s with inMem := Memory.write s.params s.inMem a v, inLen := 0 } := if_pos h

/-- Settles O49: the access reaches an unbacked byte, whose writes are ignored and which reads 0. -/
theorem unbackedWindowReadsZeroIgnoresWrites : Obligations.UnbackedWindowReadsZeroIgnoresWrites := by
  intro s o v rest ho
  obtain ⟨k, hk, htarget⟩ := targetOf_unbacked ho
  refine ⟨fun h => ?_, fun h => ?_⟩
  · rw [step_write h, htarget, writeAt, State.writeWindow_unbacked (s := s.setInputs rest) hk]
    rfl
  · rw [step_read h, htarget, State.readAt, State.inByte_unbacked hk]
    rfl

/-- The bytes of the IN SRAM after a write of a backed one (R61). -/
theorem State.writeWindow_inByte {s : State} {a : Nat} (ha : a < s.params.inBytes)
    (hm : Memory.Rising s.inMem) (v : Byte) (b : Nat) :
    (s.writeWindow a v).inByte b = if b = a then v else s.inByte b := by
  rw [State.writeWindow_backed ha]
  by_cases hb : b < s.params.inBytes
  · rw [State.inByte_backed hb, State.inByte_backed (by exact hb), Memory.read_write hm]
  · have hne : b ≠ a := by omega
    rw [if_neg hne, State.inByte_unbacked (Nat.not_lt.1 hb), State.inByte_unbacked (by exact Nat.not_lt.1 hb)]

/-- Settles O48: the access reaches byte a, which is backed. -/
theorem windowWriteStoresAndDropsTheView : Obligations.WindowWriteStoresAndDropsTheView := by
  intro s o a v rest hwf h ho ha
  refine ⟨((s.setInputs rest).writeWindow a (v.setWidth 8)).respond .written, ?_, fun b => ?_, ?_⟩
  · rw [step_write h, targetOf_window ho]
    rfl
  · exact State.writeWindow_inByte (s := s.setInputs rest) ha hwf.1 _ b
  · rw [State.writeWindow_backed (s := s.setInputs rest) ha]
    rfl

/-! ## Side effects (R63) -/

/-- A write to STATUS with bit 8 = 0 has no effect (R29, R30). -/
theorem State.writeStatus_eq_self {v : Word} (h : v.getLsbD 8 = false) (s : State) : s.writeStatus v = s := by
  rw [State.writeStatus, errAfterWrite, h, Bool.not_false, Bool.and_true]

/-- Two equal reads in a row answer the same and leave all else as it was. -/
theorem step_read_twice {s : State} {o : Offset} {width : Nat} {rest : List HostEvent}
    (h : s.inputs = .access (.read o width) :: .access (.read o width) :: rest) :
    ∃ r t, step s = .next t ∧
      t = { s with inputs := .access (.read o width) :: rest, responses := s.responses ++ [r] } ∧
      step t = .next { s with inputs := rest, responses := s.responses ++ [r, r] } := by
  refine ⟨s.readAt (targetOf o width), _, step_read h, rfl, ?_⟩
  rw [step_read rfl, State.readAt_respond, State.readAt_setInputs]
  simp [State.respond, State.setInputs]

/-- Settles O51: of what an access can do, each case but the unchanged state is one of the listed writes. -/
theorem onlyTheListedAccessesHaveSideEffects : Obligations.OnlyTheListedAccessesHaveSideEffects := by
  refine ⟨fun s a rest h hcmd harg0 harg1 hstatus hwindow => ?_, fun s o width rest h => step_read_twice h⟩
  obtain ⟨t, ht⟩ := performAccess_next a (s.setInputs rest)
  have hstep : step s = .next t := (step_event h).trans ht
  obtain ⟨u, r, rfl, hu⟩ := performAccess_cases ht
  refine ⟨r, hstep.trans ?_⟩
  suffices u = s.setInputs rest by
    rw [this]
    rfl
  obtain hu | ⟨c, ha, -⟩ | ⟨v, ha, -⟩ | ⟨v, ha, -⟩ | ⟨v, ha, hu⟩ | ⟨o, v, k, ha, ho, hk, -⟩ := hu
  · exact hu
  · exact absurd ha (hcmd c)
  · exact absurd ha (harg0 v)
  · exact absurd ha (harg1 v)
  · have hv : v.getLsbD 8 = false := Bool.eq_false_iff.2 fun hv => hstatus v hv ha
    rw [hu, State.writeStatus_eq_self hv]
  · exact absurd hk (Nat.not_lt.2 (hwindow o v k ha ho))

end Sys2Proof.Machine
end

section
/-!
PROOFS. What commands see of the two buffers (R51 to R55, R104, R114 to R116): READ's words and answers, an
appended value read back, and the view, outside which no bit of the IN SRAM has an effect and inside which none
changes.
-/

namespace Sys2Proof

/-! ## The words of one command (R81, R83, R84, R87) -/

/-- A word decodes to a command exactly when it passes the mask and match of that command's row and has its
fields. -/
theorem decode_eq_ok_iff {c : Word} {i : Instr} :
    decode c = .ok i ↔ c &&& opMask (opOf i) = opMatch (opOf i) ∧
      i = instrOfFields (opOf i) (fieldBuf c) (fieldMode c) (fieldCnt c) := by
  constructor
  · intro h
    obtain ⟨op, hm, rfl⟩ := decode_ok_iff.1 h
    rw [opOf_instrOfFields]
    exact ⟨hm, rfl⟩
  · rintro ⟨hm, hi⟩
    exact decode_ok_iff.2 ⟨opOf i, hm, hi⟩

theorem eq_bufOfBit_iff {b : Buf} {m : Bool} : b = bufOfBit m ↔ (b = .output ↔ m = true) := by
  cases b <;> cases m <;> decide

theorem eq_orderOfBit_iff {o : BitOrder} {m : Bool} : o = orderOfBit m ↔ (o = .msbf ↔ m = true) := by
  cases o <;> cases m <;> decide

/-- CNT as a number: bits 11:6 (R85). -/
theorem fieldCnt_eq (c : Word) : fieldCnt c = c.toNat / 2 ^ 6 % 2 ^ 6 := by
  rw [fieldCnt, BitVec.extractLsb'_toNat, Nat.shiftRight_eq_div_pow]

end Sys2Proof

namespace Sys2Proof.Machine

open Sys2Proof

/-! ## What a command answers, by its bounds -/

section
variable {s : State} {b : Buf} {o : BitOrder} {n : Nat}

theorem exec_wrap_of_le (hcount : s.operand1 ≤ s.params.inBytes) (hlen : s.operand0 ≤ 8 * s.operand1) :
    exec .wrap s = .next ((s.setInLen s.operand0).complete s.operand0) :=
  (if_neg (Nat.not_lt.2 hcount)).trans (if_neg (Nat.not_lt.2 hlen))

theorem exec_wrap_range (h : s.params.inBytes < s.operand1 ∨ 8 * s.operand1 < s.operand0) :
    exec .wrap s = .next (s.raise .range) := by
  by_cases hcount : s.params.inBytes < s.operand1
  · exact if_pos hcount
  · exact (if_neg hcount).trans (if_pos (h.resolve_left hcount))

theorem exec_append_of_le (hn : n ≤ maxMove) (hroom : s.outLen + n ≤ s.params.outBits) :
    exec (.append n) s = .next ((s.appendOut (seqBits n s.operand0)).complete (s.outLen + n)) :=
  (if_neg (Nat.not_lt.2 hn)).trans (if_neg (Nat.not_lt.2 hroom))

theorem exec_append_config (hn : maxMove < n) : exec (.append n) s = .next (s.raise .config) := if_pos hn

theorem exec_append_range (hn : n ≤ maxMove) (hroom : s.params.outBits < s.outLen + n) :
    exec (.append n) s = .next (s.raise .range) :=
  (if_neg (Nat.not_lt.2 hn)).trans (if_pos hroom)

theorem exec_read_of_le (hn : n ≤ maxMove) (hlen : s.operand0 + n ≤ s.len b) :
    exec (.read b o n) s = .next (s.complete (readBits (s.bit b) s.operand0 n o)) :=
  (if_neg (Nat.not_lt.2 hn)).trans (if_neg (Nat.not_lt.2 hlen))

theorem exec_read_config (hn : maxMove < n) : exec (.read b o n) s = .next (s.raise .config) := if_pos hn

theorem exec_read_range (hn : n ≤ maxMove) (hlen : s.len b < s.operand0 + n) :
    exec (.read b o n) s = .next (s.raise .range) :=
  (if_neg (Nat.not_lt.2 hn)).trans (if_pos hlen)

theorem exec_bitat_of_lt (hk : s.operand0 < s.len b) :
    exec (.bitat b) s = .next (s.complete (s.bit b s.operand0).toNat) := if_neg (Nat.not_le.2 hk)

theorem exec_bitat_range (hk : s.len b ≤ s.operand0) : exec (.bitat b) s = .next (s.raise .range) := if_pos hk

end

/-! ## READ (R114 to R116) -/

/-- A bit range as a number is the sum of its bits, each with its weight (R54). -/
theorem readBits_eq_sum (f : Nat → Bool) (o n : Nat) (order : BitOrder) :
    readBits f o n order = ∑ j ∈ Finset.range n, (f (o + j)).toNat * bitWeight n j order := rfl

/-- Settles O16, from READ's row and its three outcomes. -/
theorem readReturnsTheWeightedBits : Obligations.ReadReturnsTheWeightedBits := by
  refine ⟨fun c b o n => ?_, fun s b n hn hlen => ⟨?_, ?_⟩, fun s b o n hn => ?_, fun s b o n hn hlen => ?_⟩
  · rw [decode_eq_ok_iff, ← fieldCnt_eq]
    simp only [opOf, instrOfFields, Instr.read.injEq, eq_bufOfBit_iff, eq_orderOfBit_iff]
    rfl
  · rw [exec_read_of_le hn hlen, State.complete_eq, readBits_eq_sum]
    rfl
  · rw [exec_read_of_le hn hlen, State.complete_eq, readBits_eq_sum]
    rfl
  · rw [exec_read_config hn, State.raise_eq]
    rfl
  · rw [exec_read_range hn hlen, State.raise_eq]
    rfl

/-! ## An appended value read back (R55) -/

/-- The bits of `seq_n(v)`, read most significant first, are the low n bits of v. -/
theorem readBits_seqBits (bits : Bits) (n v : Nat) :
    readBits (fun k => (bits ++ seqBits n v).getD k false) bits.length n .msbf = v % 2 ^ n := by
  induction n generalizing bits with
  | zero => rw [readBits_zero, pow_zero, Nat.mod_one]
  | succ n ih =>
    have hrest := ih (bits ++ [v.testBit n])
    rw [List.append_assoc, List.singleton_append, List.length_append, List.length_singleton] at hrest
    have hfirst : (bits ++ v.testBit n :: seqBits n v).getD bits.length false = v.testBit n := by simp
    rw [seqBits_succ, readBits_msbf_succ, hfirst, hrest, Nat.mod_pow_succ, ← Nat.toNat_testBit, mul_comm,
      Nat.add_comm]

/-- A READ of what was appended, most significant bit first, answers it. -/
theorem exec_read_appended {s : State} {bits : Bits} {n v : Nat} (hn : n ≤ maxMove)
    (hout : s.out = bits ++ seqBits n v) (hoffset : s.operand0 = bits.length) :
    exec (.read .output .msbf n) s = .next (s.complete (v % 2 ^ n)) := by
  have hlen : s.operand0 + n ≤ s.len .output := by
    simp [State.len, State.outLen, hout, hoffset]
  have hbit : s.bit .output = fun k => (bits ++ seqBits n v).getD k false := by rw [← hout]; rfl
  rw [exec_read_of_le hn hlen, hbit, hoffset, readBits_seqBits]

/-- Settles O15: READ finds the n bits of the appended value, and v < 2^n is all of it. -/
theorem appendThenReadReturnsTheValue : Obligations.AppendThenReadReturnsTheValue := by
  intro s n p hn hroom hp hv
  refine ⟨_, _, exec_append_of_le hn hroom, exec_read_appended hn rfl hp, rfl, ?_⟩
  rw [State.complete_result, Nat.mod_eq_of_lt hv, BitVec.ofNat_toNat, BitVec.setWidth_eq]

/-! ## Outside the view (R51) -/

section
variable {s : State} {m : Memory}
  (h : ∀ k, k < s.inLen → (s.withSram s.params m).inBit k = s.inBit k)
include h

/-- Below a buffer's length its bits are the same over an IN SRAM that agrees on the view. -/
theorem State.bit_of_view {b : Buf} {k : Nat} (hk : k < s.len b) :
    (s.withSram s.params m).bit b k = s.bit b k := by
  cases b with
  | input => exact h k hk
  | output => rfl

/-- UNSTUFF's words lie within the view (R152, R153). -/
theorem State.words_of_view (w : Nat) : (s.withSram s.params m).words w = s.words w := by
  refine List.map_congr_left fun i hi => readBits_congr (fun j hj => h _ ?_) _
  have hword : (i + 1) * w ≤ numWords s.inLen w * w := Nat.mul_le_mul_right w (List.mem_range.1 hi)
  have hview := numWords_mul_le s.inLen w
  rw [Nat.succ_mul] at hword
  omega

/-- With another IN SRAM that agrees on the view, a command does the same. -/
theorem exec_of_view (i : Instr) :
    ∃ t, exec i s = .next t ∧ exec i (s.withSram s.params m) = .next (t.withSram s.params m) := by
  cases i with
  | wrap =>
    by_cases hfit : s.operand1 ≤ s.params.inBytes ∧ s.operand0 ≤ 8 * s.operand1
    · obtain ⟨hcount, hlen⟩ := hfit
      exact ⟨_, exec_wrap_of_le hcount hlen, exec_wrap_of_le (s := s.withSram s.params m) hcount hlen⟩
    · have hpast : s.params.inBytes < s.operand1 ∨ 8 * s.operand1 < s.operand0 := by omega
      exact ⟨_, exec_wrap_range hpast, exec_wrap_range (s := s.withSram s.params m) hpast⟩
  | empty => exact ⟨_, rfl, rfl⟩
  | append n =>
    obtain hn | hn := le_or_gt n maxMove
    · obtain hroom | hroom := le_or_gt (s.outLen + n) s.params.outBits
      · exact ⟨_, exec_append_of_le hn hroom, exec_append_of_le (s := s.withSram s.params m) hn hroom⟩
      · exact ⟨_, exec_append_range hn hroom, exec_append_range (s := s.withSram s.params m) hn hroom⟩
    · exact ⟨_, exec_append_config hn, exec_append_config hn⟩
  | read b o n =>
    obtain hn | hn := le_or_gt n maxMove
    · obtain hlen | hlen := le_or_gt (s.operand0 + n) (s.len b)
      · have hlen' : (s.withSram s.params m).operand0 + n ≤ (s.withSram s.params m).len b := by simpa using hlen
        refine ⟨_, exec_read_of_le hn hlen, (exec_read_of_le hn hlen').trans ?_⟩
        rw [State.withSram_operand0, readBits_congr fun j hj => State.bit_of_view h (by omega)]
        rfl
      · exact ⟨_, exec_read_range hn hlen, exec_read_range hn (by simpa using hlen)⟩
    · exact ⟨_, exec_read_config hn, exec_read_config hn⟩
  | length b => cases b <;> exact ⟨_, rfl, rfl⟩
  | bitat b =>
    obtain hk | hk := lt_or_ge s.operand0 (s.len b)
    · have hk' : (s.withSram s.params m).operand0 < (s.withSram s.params m).len b := by simpa using hk
      refine ⟨_, exec_bitat_of_lt hk, (exec_bitat_of_lt hk').trans ?_⟩
      rw [State.withSram_operand0, State.bit_of_view h hk]
      rfl
    · exact ⟨_, exec_bitat_range hk, exec_bitat_range (by simpa using hk)⟩
  | unstuff w =>
    simp only [exec, execUnstuff, State.withSram_operand0, State.words_of_view h]
    split
    · exact ⟨_, rfl, rfl⟩
    · split <;> exact ⟨_, rfl, rfl⟩

end

/-- Settles O41, command by command: only READ, BITAT and UNSTUFF read bits of IN, each below in_len. -/
theorem bitsOutsideTheViewHaveNoEffect : Obligations.BitsOutsideTheViewHaveNoEffect := by
  intro i s m h
  obtain ⟨t, ht, ht'⟩ := exec_of_view h i
  have hparams : t.params = s.params := by rw [(exec_ending ht).frame]
  refine ⟨t, ht, ht'.trans ?_⟩
  rw [← hparams]
  rfl

/-! ## Inside the view (R104) -/

/-- The bits of IN depend on the IN SRAM and the parameters alone (R50). -/
theorem State.inBit_of_sram_eq {s t : State} (hp : t.params = s.params) (hm : t.inMem = s.inMem) (k : Nat) :
    t.inBit k = s.inBit k := by
  simp only [State.inBit, State.inByte, hp, hm]

/-- A CMD write of any other word than WRAP's keeps in_len (R128). -/
theorem runCommand_inLen {c : Word} {s t : State} (hc : c ≠ 0x00000001#32) (h : runCommand c s = .next t) :
    t.inLen = s.inLen := by
  obtain ⟨i, hi, hexec⟩ | ⟨-, -, rfl⟩ := runCommand_cases h
  · refine exec_inLen hexec ?_
    rintro rfl
    exact hc ((BitVec.and_allOnes (x := c)).symm.trans (match_of_decode hi))
  · rfl

/-- Settles O42, by the cases of a step: reset and a backed window write drop the view, and no other step but a
WRAP changes it. -/
theorem liveViewNeverChanges : Obligations.LiveViewNeverChanges := by
  intro s t h hlive hwrap
  suffices t.inLen = s.inLen ∧ t.params = s.params ∧ t.inMem = s.inMem by
    obtain ⟨hlen, hp, hm⟩ := this
    exact ⟨hlen, State.inBit_of_sram_eq hp hm⟩
  obtain ⟨-, rfl⟩ | ⟨held, es, -, rfl⟩ | ⟨a, es, hin, ha⟩ := step_cases h
  · exact ⟨rfl, rfl, rfl⟩
  · exact absurd rfl hlive
  · obtain ⟨u, r, rfl, hu⟩ := performAccess_cases ha
    obtain rfl | ⟨c, rfl, hc⟩ | ⟨v, -, rfl⟩ | ⟨v, -, rfl⟩ | ⟨v, -, rfl⟩ | ⟨o, v, k, -, -, hk, rfl⟩ := hu
    · exact ⟨rfl, rfl, rfl⟩
    · have hne : c ≠ 0x00000001#32 := fun hc => hwrap es (hc ▸ hin)
      exact ⟨(runCommand_inLen hne hc :), (runCommand_sram hc :)⟩
    · exact ⟨rfl, rfl, rfl⟩
    · exact ⟨rfl, rfl, rfl⟩
    · exact ⟨rfl, rfl, rfl⟩
    · rw [State.respond_inLen, State.writeWindow_backed hk] at hlive
      exact absurd rfl hlive

end Sys2Proof.Machine
end

section
/-!
PROOFS. The command word (R80 to R91): a well-formed command and its word determine each other, the words of each
row of R87 are counted through the row's commands, and a word outside the rows is ILLEGAL.
-/

namespace Sys2Proof

/-! ## The fields of an assembled word (R81, R91) -/

section
variable (c d : Word)

@[simp] theorem fieldBuf_or : fieldBuf (c ||| d) = (fieldBuf c || fieldBuf d) := BitVec.getLsbD_or

@[simp] theorem fieldMode_or : fieldMode (c ||| d) = (fieldMode c || fieldMode d) := BitVec.getLsbD_or

@[simp] theorem fieldCnt_or : fieldCnt (c ||| d) = fieldCnt c ||| fieldCnt d := by
  rw [fieldCnt, BitVec.extractLsb'_or, BitVec.toNat_or]
  rfl

/-- CNT has six bits (R85). -/
theorem fieldCnt_lt : fieldCnt c < cntValues := (c.extractLsb' 6 6).isLt

end

@[simp] theorem bufOfBit_fieldBuf_bufField (b : Buf) : bufOfBit (fieldBuf (bufField b)) = b := by cases b <;> rfl

@[simp] theorem fieldMode_bufField (b : Buf) : fieldMode (bufField b) = false := by cases b <;> rfl

@[simp] theorem fieldCnt_bufField (b : Buf) : fieldCnt (bufField b) = 0 := by cases b <;> rfl

@[simp] theorem orderOfBit_fieldMode_modeField (o : BitOrder) : orderOfBit (fieldMode (modeField o)) = o := by
  cases o <;> rfl

@[simp] theorem fieldBuf_modeField (o : BitOrder) : fieldBuf (modeField o) = false := by cases o <;> rfl

@[simp] theorem fieldCnt_modeField (o : BitOrder) : fieldCnt (modeField o) = 0 := by cases o <;> rfl

@[simp] theorem fieldBuf_cntField (n : Nat) : fieldBuf (cntField n) = false := by simp [fieldBuf, cntField]

@[simp] theorem fieldMode_cntField (n : Nat) : fieldMode (cntField n) = false := by simp [fieldMode, cntField]

theorem fieldCnt_cntField {n : Nat} (h : fitsCnt n = true) : fieldCnt (cntField n) = n := by
  rw [fitsCnt_iff] at h
  rw [fieldCnt_eq, cntField, BitVec.toNat_shiftLeft, BitVec.toNat_ofNat, Nat.shiftLeft_eq]
  omega

/-! ## A command from its word, and a word from its command (R91) -/

/-- The word of a well-formed command passes its row's mask and match, row by row. -/
theorem encode_match (i : Instr) : Laws.MaskMatch.Statement i := by
  cases i with
  | wrap => exact Laws.MaskMatch.wrap
  | empty => exact Laws.MaskMatch.empty
  | append n => exact Laws.MaskMatch.append n
  | read b o n => exact Laws.MaskMatch.read b o n
  | length b => exact Laws.MaskMatch.length b
  | bitat b => exact Laws.MaskMatch.bitat b
  | unstuff w => exact Laws.MaskMatch.unstuff w

/-- The fields of a well-formed command's word are those the command was written with. -/
theorem instrOfFields_encode {i : Instr} (h : i.wellFormed = true) :
    instrOfFields (opOf i) (fieldBuf (encode i)) (fieldMode (encode i)) (fieldCnt (encode i)) = i := by
  cases i with
  | wrap => rfl
  | empty => rfl
  | append n =>
    have hop : fieldCnt 0x00000003#32 = 0 := rfl
    simp [opOf, instrOfFields, encode, fieldCnt_cntField h, hop]
  | read b o n =>
    have hbuf : fieldBuf 0x00000004#32 = false := rfl
    have hmode : fieldMode 0x00000004#32 = false := rfl
    have hcnt : fieldCnt 0x00000004#32 = 0 := rfl
    simp [opOf, instrOfFields, encode, fieldCnt_cntField h, hbuf, hmode, hcnt]
  | length b => cases b <;> rfl
  | bitat b => cases b <;> rfl
  | unstuff w =>
    have hop : fieldCnt 0x00000007#32 = 0 := rfl
    simp [opOf, instrOfFields, encode, fieldCnt_cntField h, hop]

/-- Decoding is a left inverse of encoding on the well-formed commands (R90, R91). -/
theorem decode_encode {i : Instr} (h : i.wellFormed = true) : decode (encode i) = .ok i :=
  decode_eq_ok_iff.2 ⟨encode_match i h, (instrOfFields_encode h).symm⟩

/-! A field read and put back in its place is the word masked to that field (R81). -/

theorem bufField_bufOfBit (c : Word) : bufField (bufOfBit (fieldBuf c)) = c &&& 0x00000010#32 := by
  have hmask : 0x00000010#32 = BitVec.twoPow 32 4 := rfl
  rw [hmask, BitVec.and_twoPow, fieldBuf]
  cases c.getLsbD 4 <;> rfl

theorem modeField_orderOfBit (c : Word) : modeField (orderOfBit (fieldMode c)) = c &&& 0x00000020#32 := by
  have hmask : 0x00000020#32 = BitVec.twoPow 32 5 := rfl
  rw [hmask, BitVec.and_twoPow, fieldMode]
  cases c.getLsbD 5 <;> rfl

theorem cntField_fieldCnt (c : Word) : cntField (fieldCnt c) = c &&& 0x00000FC0#32 := by
  have hmask : 0x00000FC0#32 = (BitVec.allOnes 6).setWidth 32 <<< 6 := rfl
  rw [hmask, cntField, fieldCnt, BitVec.ofNat_toNat]
  ext k hk
  simp only [BitVec.getElem_and, BitVec.getElem_shiftLeft, BitVec.getElem_setWidth, BitVec.getLsbD_extractLsb',
    BitVec.getLsbD_allOnes]
  obtain hlow | hlow := Nat.lt_or_ge k 6
  · simp [hlow]
  · rw [Nat.add_sub_of_le hlow, BitVec.getLsbD_eq_getElem hk]
    ac_rfl

/-- The word of a row with the fields of `c` has the row's fixed bits, and `c`'s bits elsewhere. -/
theorem encode_instrOfFields (op : Op) (c : Word) :
    encode (instrOfFields op (fieldBuf c) (fieldMode c) (fieldCnt c)) = opMatch op ||| (c &&& ~~~opMask op) := by
  cases op with
  | wrap => simp [encode, instrOfFields, opMatch, opMask]
  | empty => simp [encode, instrOfFields, opMatch, opMask]
  | append => simp [encode, instrOfFields, opMatch, opMask, cntField_fieldCnt]
  | read =>
    simp [encode, instrOfFields, opMatch, opMask, bufField_bufOfBit, modeField_orderOfBit, cntField_fieldCnt,
      BitVec.or_assoc, ← BitVec.and_or_distrib_left]
  | length => simp [encode, instrOfFields, opMatch, opMask, bufField_bufOfBit]
  | bitat => simp [encode, instrOfFields, opMatch, opMask, bufField_bufOfBit]
  | unstuff => simp [encode, instrOfFields, opMatch, opMask, cntField_fieldCnt]

theorem wellFormed_instrOfFields (op : Op) (buf mode : Bool) (c : Word) :
    (instrOfFields op buf mode (fieldCnt c)).wellFormed = true := by
  have hcnt : fitsCnt (fieldCnt c) = true := (fitsCnt_iff _).2 (fieldCnt_lt c)
  cases op with
  | append | read | unstuff => exact hcnt
  | wrap | empty | length | bitat => rfl

theorem wellFormed_of_decode {c : Word} {i : Instr} (h : decode c = .ok i) : i.wellFormed = true := by
  obtain ⟨op, -, rfl⟩ := decode_ok_iff.1 h
  exact wellFormed_instrOfFields op _ _ c

/-- Encoding is a left inverse of decoding on the legal words: the row's bits are `c`'s by its match, the others
through its fields (R87, R91). -/
theorem encode_of_decode {c : Word} {i : Instr} (h : decode c = .ok i) : encode i = c := by
  obtain ⟨op, hm, rfl⟩ := decode_ok_iff.1 h
  rw [encode_instrOfFields, ← hm, ← BitVec.and_or_distrib_left, BitVec.or_not_self, BitVec.and_allOnes]

/-- Settles O2: the word passes its row's mask and match, and each field gives back what was put in it. -/
theorem decodeOfEncodeIsTheCommand : Obligations.DecodeOfEncodeIsTheCommand := fun _ h => decode_encode h

/-- Settles O3: the row fixes the word's other bits, and the fields are the rest of it. -/
theorem encodeOfDecodeIsTheWord : Obligations.EncodeOfDecodeIsTheWord := fun _ _ h =>
  ⟨wellFormed_of_decode h, encode_of_decode h⟩

/-- Settles O1: the words of the model's own table, written in hexadecimal, and one more UNSTUFF. -/
theorem exampleWordsDecode : Obligations.ExampleWordsDecode :=
  ⟨decode_wrap_word, decode_empty_word, decode_append_word, decode_read_word, decode_read_lsbf_word,
    decode_length_word, decode_bitat_word, decode_encode (i := .unstuff 4) rfl, decode_unstuff_word⟩

/-! ## The commands of each row, counted (R87, R89) -/

/-- The operations of R82. -/
def allOps : Finset Op := {.wrap, .empty, .append, .read, .length, .bitat, .unstuff}

theorem mem_allOps (op : Op) : op ∈ allOps := by cases op <;> decide

/-- The two buffers of R83. -/
def allBufs : Finset Buf := {.input, .output}

theorem mem_allBufs (b : Buf) : b ∈ allBufs := by cases b <;> decide

/-- The two bit orders of R84. -/
def allOrders : Finset BitOrder := {.msbf, .lsbf}

theorem mem_allOrders (o : BitOrder) : o ∈ allOrders := by cases o <;> decide

/-- The counts CNT admits (R85). -/
def allCnts : Finset Nat := Finset.range cntValues

theorem mem_allCnts {n : Nat} : n ∈ allCnts ↔ fitsCnt n = true := Finset.mem_range.trans (fitsCnt_iff n).symm

/-- READ with its three fields in one. -/
def readOf (f : Buf × BitOrder × Nat) : Instr := .read f.1 f.2.1 f.2.2

/-- The well-formed commands of a row, one for each value of its fields. -/
def rowCommands : Op → Finset Instr
  | .wrap => {.wrap}
  | .empty => {.empty}
  | .append => allCnts.image .append
  | .read => (allBufs ×ˢ allOrders ×ˢ allCnts).image readOf
  | .length => allBufs.image .length
  | .bitat => allBufs.image .bitat
  | .unstuff => allCnts.image .unstuff

/-- How many words R89 gives each row. -/
def rowCount : Op → Nat
  | .wrap => 1
  | .empty => 1
  | .append => 64
  | .read => 256
  | .length => 2
  | .bitat => 2
  | .unstuff => 64

theorem readOf_injective : Function.Injective readOf := by
  rintro ⟨b, o, n⟩ ⟨b', o', n'⟩ h
  cases h
  rfl

theorem card_rowCommands (op : Op) : (rowCommands op).card = rowCount op := by
  cases op with
  | wrap | empty => rfl
  | append => exact Finset.card_image_of_injective _ fun _ _ => Instr.append.inj
  | read =>
    rw [rowCommands, Finset.card_image_of_injective _ readOf_injective, Finset.card_product, Finset.card_product]
    rfl
  | length => exact Finset.card_image_of_injective _ fun _ _ => Instr.length.inj
  | bitat => exact Finset.card_image_of_injective _ fun _ _ => Instr.bitat.inj
  | unstuff => exact Finset.card_image_of_injective _ fun _ _ => Instr.unstuff.inj

/-- A row's commands are well formed and have its operation. -/
theorem of_mem_rowCommands {op : Op} {i : Instr} (h : i ∈ rowCommands op) : i.wellFormed = true ∧ opOf i = op := by
  cases op with
  | wrap | empty =>
    rw [Finset.mem_singleton.1 h]
    exact ⟨rfl, rfl⟩
  | append | unstuff =>
    obtain ⟨n, hn, rfl⟩ := Finset.mem_image.1 h
    exact ⟨mem_allCnts.1 hn, rfl⟩
  | length | bitat =>
    obtain ⟨b, -, rfl⟩ := Finset.mem_image.1 h
    exact ⟨rfl, rfl⟩
  | read =>
    obtain ⟨⟨b, o, n⟩, hf, rfl⟩ := Finset.mem_image.1 h
    exact ⟨mem_allCnts.1 (Finset.mem_product.1 (Finset.mem_product.1 hf).2).2, rfl⟩

/-- A well-formed command is among those of its row. -/
theorem mem_rowCommands_opOf {i : Instr} (h : i.wellFormed = true) : i ∈ rowCommands (opOf i) := by
  cases i with
  | wrap | empty => exact Finset.mem_singleton_self _
  | append n | unstuff n => exact Finset.mem_image_of_mem _ (mem_allCnts.2 h)
  | length b | bitat b => exact Finset.mem_image_of_mem _ (mem_allBufs b)
  | read b o n =>
    have hfields : (b, o, n) ∈ allBufs ×ˢ allOrders ×ˢ allCnts :=
      Finset.mk_mem_product (mem_allBufs b) (Finset.mk_mem_product (mem_allOrders o) (mem_allCnts.2 h))
    exact Finset.mem_image_of_mem readOf hfields

/-- The commands of every row. -/
def legalCommands : Finset Instr := allOps.biUnion rowCommands

theorem mem_legalCommands {i : Instr} : i ∈ legalCommands ↔ i.wellFormed = true := by
  rw [legalCommands, Finset.mem_biUnion]
  exact ⟨fun ⟨_, _, h⟩ => (of_mem_rowCommands h).1, fun h => ⟨opOf i, mem_allOps _, mem_rowCommands_opOf h⟩⟩

/-- No command is in two rows, so the rows' counts add up (R89). -/
theorem card_legalCommands : legalCommands.card = 390 := by
  have hdisjoint : (allOps : Set Op).PairwiseDisjoint rowCommands := fun op _ op' _ hne =>
    Finset.disjoint_left.2 fun i hi hi' => hne ((of_mem_rowCommands hi).2.symm.trans (of_mem_rowCommands hi').2)
  calc legalCommands.card = ∑ op ∈ allOps, (rowCommands op).card := Finset.card_biUnion hdisjoint
    _ = ∑ op ∈ allOps, rowCount op := Finset.sum_congr rfl fun op _ => card_rowCommands op
    _ = 390 := rfl

/-! ## The words of each row, counted (R87, R89) -/

/-- The words of a set of well-formed commands are as many as the commands: `decode` and `encode` pair them off. -/
theorem ncard_words {S : Finset Instr} (hS : ∀ i ∈ S, i.wellFormed = true) :
    { c : Word | ∃ i ∈ S, decode c = .ok i }.ncard = S.card := by
  have himage : { c : Word | ∃ i ∈ S, decode c = .ok i } = encode '' S := by
    ext c
    constructor
    · rintro ⟨i, hi, hdec⟩
      exact ⟨i, hi, encode_of_decode hdec⟩
    · rintro ⟨i, hi, rfl⟩
      exact ⟨i, hi, decode_encode (hS i hi)⟩
  have hinj : Set.InjOn encode S := fun i hi j hj h => by
    have hdec := decode_encode (hS i hi)
    rw [h, decode_encode (hS j hj)] at hdec
    exact (Except.ok.inj hdec).symm
  rw [himage, hinj.ncard_image, Set.ncard_coe_finset]

theorem exists_mem_rowCommands_iff {op : Op} {c : Word} :
    (∃ i ∈ rowCommands op, decode c = .ok i) ↔ c &&& opMask op = opMatch op := by
  constructor
  · rintro ⟨i, hi, hdec⟩
    obtain ⟨-, rfl⟩ := of_mem_rowCommands hi
    exact match_of_decode hdec
  · intro h
    have hmem := mem_rowCommands_opOf (wellFormed_of_decode (decode_of_match h))
    rw [opOf_instrOfFields] at hmem
    exact ⟨_, hmem, decode_of_match h⟩

theorem ncard_row (op : Op) : { c : Word | c &&& opMask op = opMatch op }.ncard = rowCount op := by
  simp only [← exists_mem_rowCommands_iff]
  rw [ncard_words fun i hi => (of_mem_rowCommands hi).1, card_rowCommands]

theorem ncard_legal : { c : Word | ∃ i, decode c = .ok i }.ncard = 390 := by
  have hlegal : ∀ c : Word, (∃ i, decode c = .ok i) ↔ ∃ i ∈ legalCommands, decode c = .ok i := fun c =>
    ⟨fun ⟨i, h⟩ => ⟨i, mem_legalCommands.2 (wellFormed_of_decode h), h⟩, fun ⟨i, _, h⟩ => ⟨i, h⟩⟩
  simp only [hlegal]
  rw [ncard_words fun i => mem_legalCommands.1, card_legalCommands]

/-! ## What the words of a row decode to (R87), and reserved OPs (R88) -/

section
variable {c : Word}

theorem decode_wrap_iff : decode c = .ok .wrap ↔ c &&& opMask .wrap = opMatch .wrap :=
  ⟨match_of_decode, decode_of_match (op := .wrap)⟩

theorem decode_empty_iff : decode c = .ok .empty ↔ c &&& opMask .empty = opMatch .empty :=
  ⟨match_of_decode, decode_of_match (op := .empty)⟩

theorem decode_append_iff : (∃ n, decode c = .ok (.append n)) ↔ c &&& opMask .append = opMatch .append :=
  ⟨fun ⟨_, h⟩ => match_of_decode h, fun h => ⟨_, decode_of_match (op := .append) h⟩⟩

theorem decode_read_iff : (∃ b o n, decode c = .ok (.read b o n)) ↔ c &&& opMask .read = opMatch .read :=
  ⟨fun ⟨_, _, _, h⟩ => match_of_decode h, fun h => ⟨_, _, _, decode_of_match (op := .read) h⟩⟩

theorem decode_length_iff : (∃ b, decode c = .ok (.length b)) ↔ c &&& opMask .length = opMatch .length :=
  ⟨fun ⟨_, h⟩ => match_of_decode h, fun h => ⟨_, decode_of_match (op := .length) h⟩⟩

theorem decode_bitat_iff : (∃ b, decode c = .ok (.bitat b)) ↔ c &&& opMask .bitat = opMatch .bitat :=
  ⟨fun ⟨_, h⟩ => match_of_decode h, fun h => ⟨_, decode_of_match (op := .bitat) h⟩⟩

theorem decode_unstuff_iff : (∃ w, decode c = .ok (.unstuff w)) ↔ c &&& opMask .unstuff = opMatch .unstuff :=
  ⟨fun ⟨_, h⟩ => match_of_decode h, fun h => ⟨_, decode_of_match (op := .unstuff) h⟩⟩

end

/-- A word whose OP names no operation is rejected for it (R88). -/
theorem decode_reservedOp {c : Word} (h : opOfNibble (fieldOp c) = none) : decode c = .error .reservedOp := by
  rw [decode, h]

theorem opOfNibble_eq_none_iff (n : BitVec 4) : opOfNibble n = none ↔ n.toNat = 0 ∨ 8 ≤ n.toNat := by
  revert n
  decide

theorem fieldOp_toNat (c : Word) : (fieldOp c).toNat = c.toNat % 16 := BitVec.extractLsb'_toNat ..

end Sys2Proof

namespace Sys2Proof.Machine

open Sys2Proof

/-! ## Words outside the rows (R87 to R89) -/

theorem runCommand_of_error {c : Word} {e : DecodeError} (h : decode c = .error e) (s : State) :
    runCommand c s = .next { s with result := 0#32, code := 4#3, err := true } := by
  simp only [runCommand, h, State.raise_eq]
  rfl

/-- No command ends in ILLEGAL: its code is another error's or OK (R28). -/
theorem Ending.code_ne_illegal {s t : State} (h : Ending s t) : t.code ≠ 4#3 := by
  cases h with
  | error e he =>
    intro hcode
    obtain rfl : e = .illegal := ErrorKind.code_injective hcode
    exact he.elim nofun nofun
  | rejected => exact (by decide : ErrorKind.reservedWord.code ≠ 4#3)
  | view | fresh | appended | reported => exact (by decide : codeOk ≠ 4#3)

/-- Settles O4, row by row; a word that decodes passes the row of its command. -/
theorem commandExactlyWhenMaskMatches : Obligations.CommandExactlyWhenMaskMatches := by
  refine ⟨fun c => ⟨decode_wrap_iff, decode_empty_iff, decode_append_iff, decode_read_iff, decode_length_iff,
    decode_bitat_iff, decode_unstuff_iff⟩,
    fun c s _ _ hwrap hempty happend hread hlength hbitat hunstuff => ?_⟩
  cases hdec : decode c with
  | error e => exact runCommand_of_error hdec s
  | ok i =>
    have hmatch := match_of_decode hdec
    cases i with
    | wrap => exact absurd hmatch hwrap
    | empty => exact absurd hmatch hempty
    | append => exact absurd hmatch happend
    | read => exact absurd hmatch hread
    | length => exact absurd hmatch hlength
    | bitat => exact absurd hmatch hbitat
    | unstuff => exact absurd hmatch hunstuff

/-- Settles O5: each row's words are as many as its commands, and a word is ILLEGAL exactly when it does not
decode. -/
theorem legalWordsNumber390 : Obligations.LegalWordsNumber390 := by
  simp only [Obligations.LegalWordsNumber390, decode_wrap_iff, decode_empty_iff, decode_append_iff,
    decode_read_iff, decode_length_iff, decode_bitat_iff, decode_unstuff_iff]
  refine ⟨ncard_row _, ncard_row _, ncard_row _, ncard_row _, ncard_row _, ncard_row _, ncard_row _, ncard_legal,
    fun c s => ?_⟩
  cases hdec : decode c with
  | ok i =>
    obtain ⟨t, ht⟩ := exec_next i s
    exact .inl ⟨⟨i, rfl⟩, t, (runCommand_of_decode hdec s).trans ht, (exec_ending ht).code_ne_illegal⟩
  | error e => exact .inr ⟨nofun, runCommand_of_error hdec s⟩

/-- Settles O6: OP alone decides, before any other field is looked at. -/
theorem reservedOpIsIllegal : Obligations.ReservedOpIsIllegal := by
  intro c s hop
  rw [← fieldOp_toNat, ← opOfNibble_eq_none_iff] at hop
  have hdec := decode_reservedOp hop
  exact ⟨hdec, runCommand_of_error hdec s⟩

/-! ## Assembled command lines (R91) -/

theorem assembleLine_of_wellFormed {i : Instr} (h : i.wellFormed = true) :
    assembleLine (.command i) = some (.write 0x00000#17 4 (encode i)) := by
  rw [assembleLine, assembleCommand, if_pos h]
  rfl

theorem assembleLine_of_not_wellFormed {i : Instr} (h : ¬i.wellFormed = true) :
    assembleLine (.command i) = none := by
  rw [assembleLine, assembleCommand, if_neg h]
  rfl

/-- Settles O52: a line's word is its command's, and a count above 63 does not fit CNT. -/
theorem assembledCommandsDecode : Obligations.AssembledCommandsDecode := by
  refine ⟨fun i hi => ⟨encode i, assembleLine_of_wellFormed hi, decode_encode hi⟩, fun n b o hn => ?_⟩
  have hcnt : ¬fitsCnt n = true := by
    rw [fitsCnt_iff]
    omega
  exact ⟨assembleLine_of_not_wellFormed hcnt, assembleLine_of_not_wellFormed hcnt,
    assembleLine_of_not_wellFormed hcnt⟩

end Sys2Proof.Machine
end

section
/-!
PROOFS. The six BitBuffer commands (R100 to R129): the words and answers of WRAP, EMPTY, APPEND, READ, LENGTH and
BITAT, then what they do not depend on and what they leave as it is, up to the steps that can change IN and OUT.
-/

namespace Sys2Proof

/-! ## The words of WRAP and EMPTY (R81) -/

/-- The only WRAP word is 0x00000001, since its row fixes every bit (R87). -/
theorem decode_wrap_iff_eq {c : Word} : decode c = .ok .wrap ↔ c = 0x00000001#32 := by
  have hmask : c &&& opMask .wrap = c := BitVec.and_allOnes
  rw [decode_wrap_iff, hmask]
  rfl

/-- The only EMPTY word is 0x00000002, since its row fixes every bit (R87). -/
theorem decode_empty_iff_eq {c : Word} : decode c = .ok .empty ↔ c = 0x00000002#32 := by
  have hmask : c &&& opMask .empty = c := BitVec.and_allOnes
  rw [decode_empty_iff, hmask]
  rfl

end Sys2Proof

namespace Sys2Proof.Machine

open Sys2Proof

/-! ## WRAP, EMPTY and APPEND (R102 to R113) -/

/-- Settles O11, from WRAP's row and its two outcomes; the layout of the view is that of the IN SRAM (R50). -/
theorem wrapMakesTheView : Obligations.WrapMakesTheView := by
  refine ⟨fun c => decode_wrap_iff_eq, fun s hcount hlen => ⟨?_, fun k _ => rfl⟩, fun s hpast => ?_⟩
  · rw [exec_wrap_of_le hcount hlen, State.complete_eq, BitVec.ofNat_toNat, BitVec.setWidth_eq]
    rfl
  · rw [exec_wrap_range hpast, State.raise_eq]
    rfl

/-- Settles O12, from EMPTY's row and its one outcome. -/
theorem emptyMakesOutEmpty : Obligations.EmptyMakesOutEmpty :=
  ⟨fun _ => decode_empty_iff_eq, fun s => congrArg Host.Outcome.next (State.complete_eq (s.setOut []) 0)⟩

/-- Settles O13, from APPEND's row and its three outcomes. -/
theorem appendAddsTheLowBits : Obligations.AppendAddsTheLowBits := by
  refine ⟨fun c n => ?_, fun s n hn hroom => ?_, fun s n hn => ?_, fun s n hn hroom => ?_⟩
  · rw [decode_eq_ok_iff, ← fieldCnt_eq]
    simp only [opOf, instrOfFields, Instr.append.injEq]
    rfl
  · rw [exec_append_of_le hn hroom, State.complete_eq]
    rfl
  · rw [exec_append_config hn, State.raise_eq]
    rfl
  · rw [exec_append_range hn hroom, State.raise_eq]
    rfl

/-- The low n bits of a value are all that `seq_n` takes of it (R18, R112). -/
theorem seqBits_mod_two_pow (n v : Nat) : seqBits n (v % 2 ^ n) = seqBits n v := by
  refine List.map_congr_left fun j hj => ?_
  have hlow : n - 1 - j < n := by
    have := List.mem_range.1 hj
    omega
  simp [Nat.testBit_mod_two_pow, hlow]

/-- Settles O14: ARG0 enters through `seq_n` alone, and both bounds of APPEND are the same for either value. -/
theorem appendIgnoresTheHighBits : Obligations.AppendIgnoresTheHighBits := by
  intro s n v v' hlow
  have hseq : seqBits n v.toNat = seqBits n v'.toNat := by
    rw [← seqBits_mod_two_pow, hlow, seqBits_mod_two_pow]
  obtain hn | hn := le_or_gt n maxMove
  · obtain hroom | hroom := le_or_gt (s.outLen + n) s.params.outBits
    · refine ⟨_, exec_append_of_le (s := s.setArg0 v) hn hroom,
        (exec_append_of_le (s := s.setArg0 v') hn hroom).trans ?_⟩
      simp only [State.operand0, State.setArg0_arg0, hseq]
      rfl
    · exact ⟨_, exec_append_range (s := s.setArg0 v) hn hroom, exec_append_range (s := s.setArg0 v') hn hroom⟩
  · exact ⟨_, exec_append_config hn, exec_append_config hn⟩

/-! ## READ (R117, R118) -/

/-- Settles O17: the bound is READ's, and no bit is read. -/
theorem zeroWidthReadBound : Obligations.ZeroWidthReadBound := by
  refine fun s b o => ⟨fun hle => ?_, fun hlt => ?_⟩
  · rw [exec_read_of_le (Nat.zero_le _) hle, readBits_zero, State.complete_eq]
  · rw [exec_read_range (Nat.zero_le _) hlt, State.raise_eq]
    rfl

/-- Bit i of a range read least significant first is the range's bit i (R54). -/
theorem testBit_readBits_lsbf (f : Nat → Bool) {n i : Nat} (o : Nat) (hi : i < n) :
    (readBits f o n .lsbf).testBit i = f (o + i) := by
  induction n generalizing o i with
  | zero => exact absurd hi (Nat.not_lt_zero i)
  | succ n ih =>
    have hbit : readBits f o (n + 1) .lsbf = Nat.bit (f o) (readBits f (o + 1) n .lsbf) := by
      rw [readBits_lsbf_succ, Nat.bit_val, Nat.add_comm]
    rw [hbit]
    cases i with
    | zero => exact Nat.testBit_bit_zero ..
    | succ i => rw [Nat.testBit_bit_succ, ih _ (Nat.lt_of_succ_lt_succ hi), Nat.add_assoc, Nat.add_comm 1 i]

/-- Most significant first is least significant first over the same bits in reverse (R118). -/
theorem readBits_msbf_eq_lsbf_reverse (f : Nat → Bool) (o n : Nat) :
    readBits f o n .msbf = readBits (fun k => f (o + (n - 1 - k))) 0 n .lsbf := by
  rw [readBits_eq_sum, readBits_eq_sum, ← Finset.sum_range_reflect]
  refine Finset.sum_congr rfl fun j hj => ?_
  have hback : n - 1 - (n - 1 - j) = j := by
    have := Finset.mem_range.1 hj
    omega
  simp only [bitWeight, hback, Nat.zero_add]

/-- Bit i of a range read most significant first is the range's bit n-1-i (R54). -/
theorem testBit_readBits_msbf (f : Nat → Bool) {n i : Nat} (o : Nat) (hi : i < n) :
    (readBits f o n .msbf).testBit i = f (o + (n - 1 - i)) := by
  rw [readBits_msbf_eq_lsbf_reverse, testBit_readBits_lsbf _ _ hi, Nat.zero_add]

/-- A range of at most 32 bits fits RESULT whole (R57, R100). -/
theorem State.complete_readBits_toNat (s : State) (f : Nat → Bool) (o : Nat) {n : Nat} (hn : n ≤ maxMove)
    (order : BitOrder) : (s.complete (readBits f o n order)).result.toNat = readBits f o n order := by
  have hlt := (readBits_lt f o n order).trans_le (Nat.pow_le_pow_right Nat.two_pos hn)
  rw [State.complete_result, BitVec.toNat_ofNat, Nat.mod_eq_of_lt hlt]

/-- Settles O18: RESULT holds the whole range, whose bits either order keeps. -/
theorem readOrdersDifferOnlyInWeights : Obligations.ReadOrdersDifferOnlyInWeights := by
  intro s b n hn hlen
  refine ⟨_, _, exec_read_of_le hn hlen, exec_read_of_le hn hlen, ?_, ?_, fun i hi => ?_⟩
  · rw [State.complete_readBits_toNat s _ _ hn]
    exact readBits_lt ..
  · rw [State.complete_readBits_toNat s _ _ hn]
    exact readBits_lt ..
  · simp only [BitVec.getLsbD, State.complete_readBits_toNat s _ _ hn]
    exact ⟨testBit_readBits_lsbf _ _ hi, testBit_readBits_msbf _ _ hi⟩

/-! ## LENGTH and BITAT (R120 to R126) -/

/-- Settles O19, from LENGTH's row and its one outcome. -/
theorem lengthReturnsTheLogicalLength : Obligations.LengthReturnsTheLogicalLength := by
  refine ⟨fun c b => ?_, fun s => ⟨?_, ?_⟩⟩
  · rw [decode_eq_ok_iff]
    simp only [opOf, instrOfFields, Instr.length.injEq, eq_bufOfBit_iff]
    rfl
  · exact congrArg Host.Outcome.next (s.complete_eq s.inLen)
  · exact congrArg Host.Outcome.next (s.complete_eq s.outLen)

/-- One bit as a word of RESULT (R123). -/
theorem ofNat_toNat_bit (b : Bool) : BitVec.ofNat 32 b.toNat = if b then 1#32 else 0#32 := by
  cases b <;> rfl

/-- Settles O20, from BITAT's row and its two outcomes. -/
theorem bitatReturnsOneBit : Obligations.BitatReturnsOneBit := by
  refine ⟨fun c b => ?_, fun s hk => ?_, fun s hk => ?_, fun s b hk => ?_⟩
  · rw [decode_eq_ok_iff]
    simp only [opOf, instrOfFields, Instr.bitat.injEq, eq_bufOfBit_iff]
    rfl
  · rw [exec_bitat_of_lt hk, State.complete_eq, ofNat_toNat_bit]
    rfl
  · have hbit : s.bit .output s.operand0 = s.out[s.arg0.toNat] := List.getD_eq_getElem _ _ hk
    rw [exec_bitat_of_lt hk, State.complete_eq, ofNat_toNat_bit, hbit]
  · rw [exec_bitat_range hk, State.raise_eq]
    rfl

/-- Settles O21: a range of one bit is its bit, in either order. -/
theorem bitatIsAOneBitRead : Obligations.BitatIsAOneBitRead := by
  intro s b o hk
  refine ⟨_, exec_bitat_of_lt hk, ?_, rfl⟩
  rw [exec_read_of_le (by decide) hk, readBits_one]

/-! ## READ, LENGTH and BITAT depend on their operand and the buffers alone (R119, R122, R126) -/

/-- A reading command ends the same way in any state with the same operand, lengths and bits: in the same error, or
with the same value. -/
theorem exec_reading_of_buffers_eq {i : Instr} {s t u : State}
    (hi : (∃ b o n, i = .read b o n) ∨ (∃ b, i = .length b) ∨ (∃ b, i = .bitat b)) (h : exec i s = .next t)
    (harg : u.operand0 = s.operand0) (hlen : u.len = s.len) (hbit : u.bit = s.bit) :
    (∃ e, t = s.raise e ∧ exec i u = .next (u.raise e)) ∨
    (∃ r, t = s.complete r ∧ exec i u = .next (u.complete r)) := by
  obtain ⟨b, o, n, rfl⟩ | ⟨b, rfl⟩ | ⟨b, rfl⟩ := hi
  · obtain ⟨hn, rfl⟩ | ⟨hn, hpast, rfl⟩ | ⟨hn, hfit, rfl⟩ := execRead_cases h
    · exact .inl ⟨_, rfl, exec_read_config hn⟩
    · exact .inl ⟨_, rfl, exec_read_range hn (by rwa [harg, hlen])⟩
    · refine .inr ⟨_, rfl, ?_⟩
      rw [exec_read_of_le hn (by rwa [harg, hlen]), harg, hbit]
  · obtain rfl := execLength_cases h
    refine .inr ⟨_, rfl, ?_⟩
    rw [← hlen]
    rfl
  · obtain ⟨hk, rfl⟩ | ⟨hk, rfl⟩ := execBitat_cases h
    · exact .inl ⟨_, rfl, exec_bitat_range (by rwa [harg, hlen])⟩
    · refine .inr ⟨_, rfl, ?_⟩
      rw [exec_bitat_of_lt (by rwa [harg, hlen]), harg, hbit]

/-- Settles O22, from the frame of the reading commands and what they depend on. -/
theorem readingCommandsChangeNoBuffer : Obligations.ReadingCommandsChangeNoBuffer := by
  refine fun i s t hi h => ⟨exec_reading_frame hi h, fun u harg hin hout hbits => ?_⟩
  have hlen : u.len = s.len := funext fun b => by
    cases b with
    | input => exact hin
    | output => exact congrArg List.length hout
  have hbit : u.bit = s.bit := funext fun b => by
    cases b with
    | input => exact funext hbits
    | output => exact funext fun k => congrArg (·.getD k false) hout
  obtain ⟨e, rfl, hu⟩ | ⟨r, rfl, hu⟩ := exec_reading_of_buffers_eq hi h (congrArg BitVec.toNat harg) hlen hbit
  · exact ⟨_, hu, rfl, rfl⟩
  · exact ⟨_, hu, rfl, rfl⟩

/-! ## Errors (R101, R183) -/

/-- A CMD write that ends in an error raises it and does nothing before but, for RESERVED_WORD, empty OUT. -/
theorem runCommand_error {c : Word} {s t : State} (h : runCommand c s = .next t) (hcode : t.code ≠ codeOk) :
    ∃ e, t = (s.setOut (if e = .reservedWord then [] else s.out)).raise e := by
  obtain hend | rfl := runCommand_ending h
  · cases hend with
    | error e he => obtain rfl | rfl := he <;> exact ⟨_, rfl⟩
    | rejected => exact ⟨.reservedWord, rfl⟩
    | view | fresh | appended | reported => exact absurd rfl hcode
  · exact ⟨.illegal, rfl⟩

/-- CODE is 3 for RESERVED_WORD alone (R28). -/
theorem ErrorKind.code_eq_three_iff {e : ErrorKind} : e.code = 3#3 ↔ e = .reservedWord :=
  ⟨fun h => ErrorKind.code_injective h, fun h => h ▸ rfl⟩

/-- Settles O35, from the errors a CMD write can end in. -/
theorem errorsArePrecise : Obligations.ErrorsArePrecise := by
  intro c s t h hcode
  obtain ⟨e, rfl⟩ := runCommand_error h hcode
  refine ⟨e.code_le, ?_⟩
  simp only [State.raise_eq, ErrorKind.code_eq_three_iff]
  rfl

/-! ## What a step can do to IN (R128) -/

/-- The bytes of IN depend on the IN SRAM and the parameters alone (R33). -/
theorem State.inByte_of_sram_eq {s t : State} (hp : t.params = s.params) (hm : t.inMem = s.inMem) (a : Nat) :
    t.inByte a = s.inByte a := by
  simp only [State.inByte, hp, hm]

/-- Settles O39, by the cases of a step: commands reach in_len by the WRAP word alone and no byte, and a window
write reaches its own byte. -/
theorem inChangesOnlyByWrapWindowAndReset : Obligations.InChangesOnlyByWrapWindowAndReset := by
  intro s t h
  obtain ⟨-, rfl⟩ | ⟨held, es, hin, rfl⟩ | ⟨a, es, hin, ha⟩ := step_cases h
  · exact ⟨.inl fun _ => rfl, .inl rfl⟩
  · exact ⟨.inl fun _ => rfl, .inr ⟨es, .inr (.inl ⟨held, hin⟩)⟩⟩
  · obtain ⟨u, r, rfl, hu⟩ := performAccess_cases ha
    obtain rfl | ⟨c, rfl, hc⟩ | ⟨v, -, rfl⟩ | ⟨v, -, rfl⟩ | ⟨v, -, rfl⟩ | ⟨o, v, k, rfl, ho, hk, rfl⟩ := hu
    · exact ⟨.inl fun _ => rfl, .inl rfl⟩
    · obtain ⟨hp, hm⟩ := runCommand_sram hc
      refine ⟨.inl (State.inByte_of_sram_eq hp hm), ?_⟩
      by_cases hwrap : c = 0x00000001#32
      · exact .inr ⟨es, .inl (hwrap ▸ hin)⟩
      · exact .inl (runCommand_inLen hwrap hc :)
    · exact ⟨.inl fun _ => rfl, .inl rfl⟩
    · exact ⟨.inl fun _ => rfl, .inl rfl⟩
    · exact ⟨.inl fun _ => rfl, .inl rfl⟩
    · refine ⟨.inr ⟨o, v, k, es, hin, ho, hk, fun a hne hwf => ?_⟩, .inr ⟨es, .inr (.inr ⟨o, v, k, hin, ho, hk⟩)⟩⟩
      exact (State.writeWindow_inByte (s := s.setInputs es) hk hwf.1 _ a).trans (if_neg hne)

/-! ## What a step can do to OUT (R129) -/

/-- A CMD write that changes OUT is of an APPEND word, and adds to it; of the EMPTY word; or of an UNSTUFF word. -/
theorem runCommand_out {c : Word} {s t : State} (h : runCommand c s = .next t) (hne : t.out ≠ s.out) :
    (c &&& opMask .append = opMatch .append ∧ ∃ bits, t.out = s.out ++ bits) ∨
    (c = 0x00000002#32 ∧ t.out = []) ∨ c &&& opMask .unstuff = opMatch .unstuff := by
  obtain ⟨i, hi, hexec⟩ | ⟨-, -, rfl⟩ := runCommand_cases h
  · cases i with
    | append n =>
      refine .inl ⟨match_of_decode hi, t.out.drop s.out.length, ?_⟩
      calc t.out = t.out.take s.out.length ++ t.out.drop s.out.length := (List.take_append_drop ..).symm
        _ = s.out ++ t.out.drop s.out.length := by rw [exec_append_take hexec]
    | empty =>
      obtain rfl := execEmpty_cases hexec
      exact .inr (.inl ⟨decode_empty_iff_eq.1 hi, rfl⟩)
    | unstuff w => exact .inr (.inr (match_of_decode hi))
    | wrap | read | length | bitat => exact absurd (exec_out hexec nofun nofun nofun) hne
  · exact absurd rfl hne

/-- Settles O40, by the cases of a step: of all accesses only a CMD write reaches OUT. -/
theorem outChangesOnlyByAppending : Obligations.OutChangesOnlyByAppending := by
  intro s t h hne
  obtain ⟨-, rfl⟩ | ⟨held, es, hin, rfl⟩ | ⟨a, es, hin, ha⟩ := step_cases h
  · exact absurd rfl hne
  · exact ⟨es, .inr ⟨held, hin, rfl⟩⟩
  · obtain ⟨u, r, rfl, hu⟩ := performAccess_cases ha
    obtain rfl | ⟨c, rfl, hc⟩ | ⟨v, -, rfl⟩ | ⟨v, -, rfl⟩ | ⟨v, -, rfl⟩ | ⟨o, v, k, -, -, hk, rfl⟩ := hu
    · exact absurd rfl hne
    · exact ⟨es, .inl ⟨c, hin, (runCommand_out hc hne :)⟩⟩
    · exact absurd rfl hne
    · exact absurd rfl hne
    · exact absurd rfl hne
    · rw [State.writeWindow_backed hk] at hne
      exact absurd rfl hne

end Sys2Proof.Machine
end

section
/-!
PROOFS. UNSTUFF (R150 to R166): which values are stuffed and which reserved, the word loop as one rule over the word
indices, the three answers of the command, and what follows from them for its length, single words, the tail of IN
and the message word count.
-/

namespace Sys2Proof.Machine

open Sys2Proof

/-! ## The word classes (R154 to R159, R165) -/

/-- The values that carry a stuffing bit (R155). -/
abbrev IsStuffed (w value : Nat) : Prop := value = stuffLow ∨ value = onesMinusOne w

/-- The values no message word may have (R159). -/
abbrev IsReserved (w value : Nat) : Prop := value = 0 ∨ value = allOnes w

/-- The bits a word gives that is not rejected (R156, R158). -/
def wordBits (w value : Nat) : Bits := if IsStuffed w value then seqBits (w - 1) (value / 2) else seqBits w value

section
variable {w m i value : Nat}

theorem three_le_allOnes (hw : 2 ≤ w) : 3 ≤ allOnes w :=
  Nat.sub_le_sub_right (Nat.pow_le_pow_right Nat.two_pos hw) 1

theorem two_le_onesMinusOne (hw : 2 ≤ w) : 2 ≤ onesMinusOne w :=
  Nat.sub_le_sub_right (three_le_allOnes hw) 1

/-- From w = 2 on the two pairs of values do not overlap (R165). -/
theorem IsStuffed.not_isReserved (hw : 2 ≤ w) (h : IsStuffed w value) : ¬IsReserved w value := by
  have hones := three_le_allOnes hw
  have hpred : onesMinusOne w = allOnes w - 1 := rfl
  unfold IsStuffed IsReserved stuffLow at *
  omega

theorem classify_stuffed (h : IsStuffed w value) : classify w m i value = .stuffed := if_pos h

theorem classify_reserved (hw : 2 ≤ w) (hi : i < m) (h : IsReserved w value) : classify w m i value = .reserved :=
  (if_neg fun hs => IsStuffed.not_isReserved hw hs h).trans (if_pos ⟨hi, h⟩)

theorem classify_normal (hs : ¬IsStuffed w value) (h : ¬(i < m ∧ IsReserved w value)) :
    classify w m i value = .normal :=
  (if_neg hs).trans (if_neg h)

/-- R165: the class of a word by the reserved test first. -/
theorem classify_eq_reserved_first (hw : 2 ≤ w) : classify w m i value =
    if i < m ∧ IsReserved w value then .reserved else if IsStuffed w value then .stuffed else .normal := by
  by_cases h : i < m ∧ IsReserved w value
  · rw [if_pos h, classify_reserved hw h.1 h.2]
  · rw [if_neg h]
    by_cases hs : IsStuffed w value
    · rw [if_pos hs, classify_stuffed hs]
    · rw [if_neg hs, classify_normal hs h]

end

/-! ## The word loop (R159, R160) -/

section
variable {w m : Nat}

/-- One more word either ends the loop or puts its bits before those of the rest. -/
theorem unstuffWords_cons (hw : 2 ≤ w) (i value : Nat) (values : List Nat) :
    unstuffWords w m i (value :: values) = if i < m ∧ IsReserved w value then none
      else (unstuffWords w m (i + 1) values).map (wordBits w value ++ ·) := by
  rw [unstuffWords, classify_eq_reserved_first hw]
  unfold wordBits
  split_ifs <;> rfl

/-- The loop over the words at indices i to i + n - 1. -/
theorem unstuffWords_range' (hw : 2 ≤ w) (value : Nat → Nat) (i n : Nat) :
    unstuffWords w m i ((List.range' i n).map value) =
      if ∃ j ∈ List.range' i n, j < m ∧ IsReserved w (value j) then none
      else some ((List.range' i n).flatMap fun j => wordBits w (value j)) := by
  induction n generalizing i with
  | zero => simp [unstuffWords]
  | succ n ih =>
    simp only [List.range'_succ, List.map_cons, unstuffWords_cons hw, ih, List.mem_cons, exists_eq_or_imp,
      List.flatMap_cons]
    by_cases hi : i < m ∧ IsReserved w (value i)
    · rw [if_pos hi, if_pos (.inl hi)]
    · rw [if_neg hi]
      simp only [hi, false_or]
      split_ifs <;> rfl

end

/-! ## The answers of UNSTUFF (R151, R160 to R163) -/

/-- Some word of the message region has a reserved value (R159). -/
def State.MeetsReserved (s : State) (w : Nat) : Prop :=
  ∃ i, i < numWords s.inLen w ∧ i < s.operand0 ∧ IsReserved w (s.wordAt w i)

/-- The bits of all words of IN, in index order (R160). -/
def State.unstuffed (s : State) (w : Nat) : Bits :=
  (List.range (numWords s.inLen w)).flatMap fun i => wordBits w (s.wordAt w i)

section
variable {s : State} {w : Nat}

/-- The loop over the words of IN gives nothing if it meets a reserved message word. -/
theorem unstuffWords_words_none (hw : 2 ≤ w) (h : s.MeetsReserved w) :
    unstuffWords w s.operand0 0 (s.words w) = none := by
  obtain ⟨i, hi, hm, hr⟩ := h
  rw [State.words, List.range_eq_range', unstuffWords_range' hw, if_pos]
  exact ⟨i, by simpa using hi, hm, hr⟩

/-- The loop over the words of IN gives their bits if it meets no reserved message word. -/
theorem unstuffWords_words_some (hw : 2 ≤ w) (h : ¬s.MeetsReserved w) :
    unstuffWords w s.operand0 0 (s.words w) = some (s.unstuffed w) := by
  rw [State.words, State.unstuffed, List.range_eq_range', unstuffWords_range' hw, if_neg]
  rintro ⟨i, hi, hm, hr⟩
  exact h ⟨i, by simpa using hi, hm, hr⟩

theorem exec_unstuff_config (hw : w < 2 ∨ maxMove < w) : exec (.unstuff w) s = .next (s.raise .config) := if_pos hw

theorem exec_unstuff_reserved (hw : 2 ≤ w) (hmax : w ≤ maxMove) (h : s.MeetsReserved w) :
    exec (.unstuff w) s = .next ((s.setOut []).raise .reservedWord) := by
  rw [exec, execUnstuff, if_neg (by omega), unstuffWords_words_none hw h]

theorem exec_unstuff_unreserved (hw : 2 ≤ w) (hmax : w ≤ maxMove) (h : ¬s.MeetsReserved w) :
    exec (.unstuff w) s = .next ((s.setOut (s.unstuffed w)).complete (s.unstuffed w).length) := by
  rw [exec, execUnstuff, if_neg (by omega), unstuffWords_words_some hw h]

end

/-- Settles O31: the bounds on the two all-ones values for w from 2 on, and the values of w = 1 and w = 2. -/
theorem stuffedAndReservedDoNotOverlap : Obligations.StuffedAndReservedDoNotOverlap := by
  refine ⟨fun w hw _ => ?_, ⟨rfl, rfl, fun s => ?_⟩, fun m i value hv hi => ?_⟩
  · have hones := three_le_allOnes hw
    have hpred : onesMinusOne w = allOnes w - 1 := rfl
    refine ⟨hones, two_le_onesMinusOne hw, ?_, fun m i value => classify_eq_reserved_first hw⟩
    simp only [List.nodup_cons, List.mem_cons, List.not_mem_nil, or_false, not_false_iff, List.nodup_nil, and_true,
      stuffLow]
    omega
  · rw [exec_unstuff_config (.inl (by decide)), State.raise_eq]
    rfl
  · by_cases hr : value = 0 ∨ value = 3
    · exact .inl ⟨hr, classify_reserved le_rfl hi hr⟩
    · have hs : value = 1 ∨ value = 2 := by omega
      exact .inr ⟨hs, classify_stuffed hs⟩

/-- Settles O25, by the command's first check. -/
theorem unstuffChecksTheWordWidth : Obligations.UnstuffChecksTheWordWidth := by
  intro s w hw
  rw [exec_unstuff_config hw, State.raise_eq]
  rfl

/-- Settles O24: the word named is one the loop ends at or before. -/
theorem unstuffRejectsAReservedMessageWord : Obligations.UnstuffRejectsAReservedMessageWord := by
  intro s w i hw hmax hi hm hr
  rw [exec_unstuff_reserved hw hmax ⟨i, hi, hm, hr⟩, State.raise_eq]
  rfl

/-- Settles O23: the loop gives the bits of the words, which are the values named. -/
theorem unstuffReassemblesTheWords : Obligations.UnstuffReassemblesTheWords := by
  intro s w value hw hmax hvalue hfree bits
  have hnone : ¬s.MeetsReserved w := by
    rintro ⟨i, hi, hm, hr⟩
    obtain ⟨hzero, hones⟩ := hfree i hi hm
    rw [hvalue i hi] at hzero hones
    exact hr.elim hzero hones
  have hbits : s.unstuffed w = bits := by
    refine List.flatMap_congr fun i hi => ?_
    rw [hvalue i (List.mem_range.1 hi)]
    rfl
  rw [exec_unstuff_unreserved hw hmax hnone, State.complete_eq, hbits]
  rfl

/-- Settles O30: with m = 0 there is no message word, and with m at or above their number all words are. -/
theorem messageWordCountRule : Obligations.MessageWordCountRule := by
  refine fun s w hw hmax => ⟨fun hm => ?_, fun hm => ?_⟩
  · refine ⟨_, exec_unstuff_unreserved hw hmax ?_, rfl⟩
    rintro ⟨i, -, hi, -⟩
    simp [State.operand0, hm] at hi
  · by_cases h : s.MeetsReserved w
    · refine ⟨_, exec_unstuff_reserved hw hmax h, fun _ => rfl, fun hfree => ?_⟩
      obtain ⟨i, hi, -, hr⟩ := h
      exact absurd hr (not_or.2 (hfree i hi))
    · refine ⟨_, exec_unstuff_unreserved hw hmax h, fun ⟨i, hi, hr⟩ => ?_, fun _ => rfl⟩
      exact absurd ⟨i, hi, hi.trans_le hm, hr⟩ h

/-! ## The length of OUT (R162) -/

/-- A stuffed word gives one bit less than its width. -/
theorem length_wordBits {w : Nat} (hw : 2 ≤ w) (value : Nat) :
    (wordBits w value).length + (if IsStuffed w value then 1 else 0) = w := by
  unfold wordBits
  split_ifs
  · rw [length_seqBits]
    omega
  · rw [length_seqBits, Nat.add_zero]

/-- The bits of the words at given indices, and one for each stuffed word, are w for each word. -/
theorem length_flatMap_wordBits {w : Nat} (hw : 2 ≤ w) (value : Nat → Nat) (l : List Nat) :
    (l.flatMap fun i => wordBits w (value i)).length + l.countP (fun i => IsStuffed w (value i)) =
      l.length * w := by
  induction l with
  | nil => simp
  | cons i l ih =>
    have hword := length_wordBits hw (value i)
    simp only [List.flatMap_cons, List.length_append, List.countP_cons, List.length_cons, Nat.succ_mul,
      decide_eq_true_eq]
    omega

/-- R162 for the bits of all words of IN. -/
theorem State.length_unstuffed (s : State) {w : Nat} (hw : 2 ≤ w) :
    (s.unstuffed w).length + (List.range (numWords s.inLen w)).countP (fun i => IsStuffed w (s.wordAt w i)) =
      numWords s.inLen w * w := by
  rw [State.unstuffed, length_flatMap_wordBits hw, List.length_range]

/-- A success of UNSTUFF puts the bits of all words of IN into OUT. -/
theorem exec_unstuff_ok {s t : State} {w : Nat} (h : exec (.unstuff w) s = .next t) (hcode : t.code = codeOk) :
    2 ≤ w ∧ t = (s.setOut (s.unstuffed w)).complete (s.unstuffed w).length := by
  obtain ⟨-, rfl⟩ | ⟨-, -, -, rfl⟩ | ⟨hw, -, bits, hbits, rfl⟩ := execUnstuff_cases h
  · exact absurd hcode (ErrorKind.code_ne_ok .config)
  · exact absurd hcode (ErrorKind.code_ne_ok .reservedWord)
  · have hnone : ¬s.MeetsReserved w := fun hr => by simp [unstuffWords_words_none hw hr] at hbits
    rw [unstuffWords_words_some hw hnone, Option.some.injEq] at hbits
    exact ⟨hw, by rw [hbits]⟩

/-- Settles O26: the account of the words' bits, within an IN of at most 2^19 bits. -/
theorem unstuffAccountsForItsLength : Obligations.UnstuffAccountsForItsLength := by
  refine ⟨fun s t w h => ?_, fun s t w hp hin h hcode => ?_⟩
  · obtain ⟨-, rfl⟩ | ⟨-, -, -, rfl⟩ | ⟨-, -, bits, -, rfl⟩ := execUnstuff_cases h
    · exact (by decide : ErrorKind.config.code ≠ 2#3)
    · exact (by decide : ErrorKind.reservedWord.code ≠ 2#3)
    · exact (by decide : codeOk ≠ 2#3)
  · obtain ⟨hw, rfl⟩ := exec_unstuff_ok h hcode
    have hcount := s.length_unstuffed hw
    have hview := numWords_mul_le s.inLen w
    have hbytes := hp.inBytes_le
    have hfit := hp.outBits_ge
    refine ⟨Nat.eq_sub_of_add_eq hcount, ?_, le_of_add_le_left hcount.le, hview, ?_⟩
    · rw [State.complete_result, BitVec.toNat_ofNat, Nat.mod_eq_of_lt (by omega)]
      rfl
    · show (s.unstuffed w).length ≤ s.params.outBits
      omega

/-! ## One word (R155 to R158) -/

/-- The bits of 0 are zeros. -/
theorem seqBits_zero_right (n : Nat) : seqBits n 0 = List.replicate n false := by
  simp [seqBits]

/-- The bits of an all-ones value are ones. -/
theorem seqBits_allOnes (n : Nat) : seqBits n (allOnes n) = List.replicate n true := by
  refine List.eq_replicate_iff.2 ⟨length_seqBits _ _, fun b hb => ?_⟩
  obtain ⟨j, hj, rfl⟩ := List.mem_map.1 hb
  have hlow : n - 1 - j < n := by
    have := List.mem_range.1 hj
    omega
  simp [allOnes, hlow]

/-- The bits of a range read most significant first are the range itself. -/
theorem seqBits_readBits_msbf (f : Nat → Bool) (o n : Nat) :
    seqBits n (readBits f o n .msbf) = (List.range n).map fun j => f (o + j) := by
  refine List.map_congr_left fun j hj => ?_
  have hjn := List.mem_range.1 hj
  have hback : n - 1 - (n - 1 - j) = j := by omega
  rw [testBit_readBits_msbf f o (by omega), hback]

/-- The top w - 1 bits of 1...10 are all ones. -/
theorem onesMinusOne_div_two {w : Nat} (hw : 2 ≤ w) : onesMinusOne w / 2 = allOnes (w - 1) := by
  have hpow : 2 ^ w = 2 * 2 ^ (w - 1) := (mul_pow_sub_one (by omega) 2).symm
  unfold onesMinusOne allOnes
  omega

/-- The top w - 1 bits of 0...01 are zeros (R156). -/
theorem wordBits_stuffLow (w : Nat) : wordBits w stuffLow = List.replicate (w - 1) false :=
  (if_pos (.inl rfl)).trans (seqBits_zero_right _)

/-- The top w - 1 bits of 1...10 are ones (R156). -/
theorem wordBits_onesMinusOne {w : Nat} (hw : 2 ≤ w) :
    wordBits w (onesMinusOne w) = List.replicate (w - 1) true := by
  rw [wordBits, if_pos (.inr rfl), onesMinusOne_div_two hw, seqBits_allOnes]

/-- An IN of one word that is not rejected gives that word's bits. -/
theorem exec_unstuff_one_word {s : State} {w : Nat} (hw : 2 ≤ w) (hmax : w ≤ maxMove) (hlen : s.inLen = w)
    (h : ¬IsReserved w (readBits s.inBit 0 w .msbf) ∨ s.operand0 = 0) {bits : Bits}
    (hbits : wordBits w (readBits s.inBit 0 w .msbf) = bits) :
    exec (.unstuff w) s = .next ((s.setOut bits).complete bits.length) := by
  have hone : numWords s.inLen w = 1 := by rw [hlen, numWords, Nat.div_self (by omega)]
  have hword : s.wordAt w 0 = readBits s.inBit 0 w .msbf := by rw [State.wordAt, Nat.zero_mul]
  have hnone : ¬s.MeetsReserved w := by
    rintro ⟨i, hi, hm, hr⟩
    obtain rfl : i = 0 := by omega
    rw [hword] at hr
    exact h.elim (fun hn => hn hr) (fun hz => by omega)
  have hall : s.unstuffed w = bits := by
    simp [State.unstuffed, hone, hword, hbits]
  rw [exec_unstuff_unreserved hw hmax hnone, hall]

/-- Settles O27: the bits of 0...01, of 1...10 and of any other word. -/
theorem unstuffOfOneWord : Obligations.UnstuffOfOneWord := by
  refine fun s w hw hmax hlen => ⟨fun hlow => ?_, fun hhigh => ?_, fun hlow hhigh hfree => ?_⟩
  · have hs : IsStuffed w (readBits s.inBit 0 w .msbf) := .inl hlow
    have hbits := (congrArg (wordBits w) hlow).trans (wordBits_stuffLow w)
    rw [exec_unstuff_one_word hw hmax hlen (.inl (hs.not_isReserved hw)) hbits, State.complete_eq,
      List.length_replicate]
    rfl
  · have hs : IsStuffed w (readBits s.inBit 0 w .msbf) := .inr hhigh
    have hbits := (congrArg (wordBits w) hhigh).trans (wordBits_onesMinusOne hw)
    rw [exec_unstuff_one_word hw hmax hlen (.inl (hs.not_isReserved hw)) hbits, State.complete_eq,
      List.length_replicate]
    rfl
  · have hbits : wordBits w (readBits s.inBit 0 w .msbf) = (List.range w).map s.inBit := by
      have hs : ¬IsStuffed w (readBits s.inBit 0 w .msbf) := not_or.2 ⟨hlow, hhigh⟩
      rw [wordBits, if_neg hs, seqBits_readBits_msbf]
      simp only [Nat.zero_add]
    have hlegal : ¬IsReserved w (readBits s.inBit 0 w .msbf) ∨ s.operand0 = 0 :=
      hfree.imp not_or.2 (congrArg BitVec.toNat)
    rw [exec_unstuff_one_word hw hmax hlen hlegal hbits, State.complete_eq, List.length_map, List.length_range]
    rfl

/-! ## What UNSTUFF depends on (R152, R164) -/

/-- The words are those of any state with the same in_len and the same bits below their end (R153). -/
theorem State.words_of_bits_eq {s u : State} {w : Nat} (hlen : u.inLen = s.inLen)
    (hbit : ∀ k, k < numWords s.inLen w * w → u.inBit k = s.inBit k) : u.words w = s.words w := by
  rw [State.words, hlen]
  refine List.map_congr_left fun i hi => readBits_congr (fun j hj => hbit _ ?_) _
  have hword : (i + 1) * w ≤ numWords s.inLen w * w := Nat.mul_le_mul_right w (List.mem_range.1 hi)
  rw [Nat.succ_mul] at hword
  omega

/-- A view cut to its whole words has the same words (R152). -/
theorem State.words_cutTail (s : State) {w : Nat} (hw : 2 ≤ w) :
    (s.setInLen (numWords s.inLen w * w)).words w = s.words w := by
  have hn : numWords (numWords s.inLen w * w) w = numWords s.inLen w := Nat.mul_div_cancel _ (by omega)
  rw [State.words, State.setInLen_inLen, hn]
  rfl

/-- UNSTUFF with a legal w ends the same way in any state with the same m and the same words: both reject, or both
succeed with the same bits. -/
theorem exec_unstuff_of_words_eq {s u : State} {w : Nat} (hw : 2 ≤ w) (hmax : w ≤ maxMove)
    (harg : u.operand0 = s.operand0) (hwords : u.words w = s.words w) :
    (exec (.unstuff w) s = .next ((s.setOut []).raise .reservedWord) ∧
      exec (.unstuff w) u = .next ((u.setOut []).raise .reservedWord)) ∨
    (∃ bits : Bits, exec (.unstuff w) s = .next ((s.setOut bits).complete bits.length) ∧
      exec (.unstuff w) u = .next ((u.setOut bits).complete bits.length)) := by
  have hlegal : ¬(w < 2 ∨ maxMove < w) := by omega
  simp only [exec, execUnstuff, if_neg hlegal, harg, hwords]
  cases unstuffWords w s.operand0 0 (s.words w) with
  | none => exact .inl ⟨rfl, rfl⟩
  | some bits => exact .inr ⟨bits, rfl, rfl⟩

/-- Settles O28: a cut view has the same words, and a view below w has none. -/
theorem unstuffIgnoresTheTail : Obligations.UnstuffIgnoresTheTail := by
  refine ⟨fun s w hw hmax => ?_, fun s w hw hmax hlen => ?_⟩
  · obtain ⟨hs, hu⟩ | ⟨bits, hs, hu⟩ :=
      exec_unstuff_of_words_eq (s := s) (u := s.setInLen (numWords s.inLen w * w)) hw hmax rfl (s.words_cutTail hw)
    · exact ⟨_, hs, hu⟩
    · exact ⟨_, hs, hu⟩
  · have hn : numWords s.inLen w = 0 := Nat.div_eq_of_lt hlen
    have hnone : ¬s.MeetsReserved w := by
      rintro ⟨i, hi, -⟩
      omega
    have hempty : s.unstuffed w = [] := by rw [State.unstuffed, hn]; rfl
    rw [exec_unstuff_unreserved hw hmax hnone, hempty, State.complete_eq]
    rfl

/-- Settles O29: no command but WRAP reaches IN, and UNSTUFF's answer comes from w, m and the words. -/
theorem unstuffDependsOnTheViewAlone : Obligations.UnstuffDependsOnTheViewAlone := by
  refine ⟨fun s t w h => ?_, fun s s' w harg hlen hbits => ?_⟩
  · have hframe := (exec_ending h).frame
    have hparams : t.params = s.params := by rw [hframe]
    have hmem : t.inMem = s.inMem := by rw [hframe]
    exact ⟨exec_inLen h nofun, hmem, State.inByte_of_sram_eq hparams hmem⟩
  · by_cases hw : w < 2 ∨ maxMove < w
    · have hlegal : 2 ≤ w → w ≤ 32 → (s'.raise .config).out = (s.raise .config).out := fun h2 h32 =>
        absurd hw (not_or.2 ⟨Nat.not_lt.2 h2, Nat.not_lt.2 h32⟩)
      exact ⟨_, _, exec_unstuff_config hw, exec_unstuff_config hw, rfl, rfl, hlegal, fun _ => ⟨rfl, rfl, rfl⟩⟩
    · have hwords : s'.words w = s.words w := State.words_of_bits_eq hlen hbits
      obtain ⟨hs, hs'⟩ | ⟨bits, hs, hs'⟩ :=
        exec_unstuff_of_words_eq (by omega) (by omega) (congrArg BitVec.toNat harg) hwords
      · exact ⟨_, _, hs, hs', rfl, rfl, fun _ _ => rfl, fun hw' => absurd hw' hw⟩
      · exact ⟨_, _, hs, hs', rfl, rfl, fun _ _ => rfl, fun hw' => absurd hw' hw⟩

end Sys2Proof.Machine
end

section
/-!
PROOFS. The errors (R180 to R187): which error each command raises, said once for all commands; the exact causes of
CONFIG, RANGE and RESERVED_WORD; the words that raise ILLEGAL; and the idle step (R200).
-/

namespace Sys2Proof.Machine

open Sys2Proof

/-! ## Which error a command raises (R182, R184, R185) -/

/-- The error a command raises from a state, by its cause; a count out of its range is CONFIG whatever the bounds say
(R187). No command raises ILLEGAL: that is for a word that is none (R186). -/
inductive Raises (s : State) : Instr → ErrorKind → Prop where
  | wrapRange (h : s.params.inBytes < s.operand1 ∨ 8 * s.operand1 < s.operand0) : Raises s .wrap .range
  | appendConfig {n : Nat} (hn : maxMove < n) : Raises s (.append n) .config
  | appendRange {n : Nat} (hn : n ≤ maxMove) (hroom : s.params.outBits < s.outLen + n) : Raises s (.append n) .range
  | readConfig {b : Buf} {o : BitOrder} {n : Nat} (hn : maxMove < n) : Raises s (.read b o n) .config
  | readRange {b : Buf} {o : BitOrder} {n : Nat} (hn : n ≤ maxMove) (hlen : s.len b < s.operand0 + n) :
      Raises s (.read b o n) .range
  | bitatRange {b : Buf} (hk : s.len b ≤ s.operand0) : Raises s (.bitat b) .range
  | unstuffConfig {w : Nat} (hw : w < 2 ∨ maxMove < w) : Raises s (.unstuff w) .config
  | unstuffReserved {w : Nat} (hw : 2 ≤ w) (hmax : w ≤ maxMove) (h : s.MeetsReserved w) :
      Raises s (.unstuff w) .reservedWord

section
variable {s t : State} {i : Instr} {e : ErrorKind}

/-- A command with a cause of an error ends in that error. -/
theorem Raises.exec_code (h : Raises s i e) : ∃ t, exec i s = .next t ∧ t.code = e.code := by
  cases h with
  | wrapRange h => exact ⟨_, exec_wrap_range h, rfl⟩
  | appendConfig hn => exact ⟨_, exec_append_config hn, rfl⟩
  | appendRange hn hroom => exact ⟨_, exec_append_range hn hroom, rfl⟩
  | readConfig hn => exact ⟨_, exec_read_config hn, rfl⟩
  | readRange hn hlen => exact ⟨_, exec_read_range hn hlen, rfl⟩
  | bitatRange hk => exact ⟨_, exec_bitat_range hk, rfl⟩
  | unstuffConfig hw => exact ⟨_, exec_unstuff_config hw, rfl⟩
  | unstuffReserved hw hmax h => exact ⟨_, exec_unstuff_reserved hw hmax h, rfl⟩

/-- A command ends in an error it has a cause of, or in OK. -/
theorem exec_code_cases (h : exec i s = .next t) : (∃ e, Raises s i e ∧ t.code = e.code) ∨ t.code = codeOk := by
  cases i with
  | wrap =>
    obtain ⟨rfl, hpast⟩ | ⟨-, -, rfl⟩ := execWrap_cases h
    · exact .inl ⟨_, .wrapRange hpast, rfl⟩
    · exact .inr rfl
  | empty => obtain rfl := execEmpty_cases h; exact .inr rfl
  | append n =>
    obtain ⟨hn, rfl⟩ | ⟨hn, hroom, rfl⟩ | ⟨-, -, rfl⟩ := execAppend_cases h
    · exact .inl ⟨_, .appendConfig hn, rfl⟩
    · exact .inl ⟨_, .appendRange hn hroom, rfl⟩
    · exact .inr rfl
  | read b o n =>
    obtain ⟨hn, rfl⟩ | ⟨hn, hlen, rfl⟩ | ⟨-, -, rfl⟩ := execRead_cases h
    · exact .inl ⟨_, .readConfig hn, rfl⟩
    · exact .inl ⟨_, .readRange hn hlen, rfl⟩
    · exact .inr rfl
  | length b => obtain rfl := execLength_cases h; exact .inr rfl
  | bitat b =>
    obtain ⟨hk, rfl⟩ | ⟨-, rfl⟩ := execBitat_cases h
    · exact .inl ⟨_, .bitatRange hk, rfl⟩
    · exact .inr rfl
  | unstuff w =>
    obtain ⟨hw, rfl⟩ | ⟨hw, hmax, hnone, rfl⟩ | ⟨-, -, bits, -, rfl⟩ := execUnstuff_cases h
    · exact .inl ⟨_, .unstuffConfig hw, rfl⟩
    · have hmeets : s.MeetsReserved w := by
        by_contra hfree
        rw [unstuffWords_words_some hw hfree] at hnone
        cases hnone
      exact .inl ⟨_, .unstuffReserved hw hmax hmeets, rfl⟩
    · exact .inr rfl

end

/-- Every command answers a next state, whose CODE is an error's exactly when the command has a cause of it. -/
theorem exec_code_iff (i : Instr) (s : State) (e : ErrorKind) :
    ∃ t, exec i s = .next t ∧ (t.code = e.code ↔ Raises s i e) := by
  obtain ⟨t, ht⟩ := exec_next i s
  refine ⟨t, ht, fun hcode => ?_, fun hr => ?_⟩
  · obtain ⟨e', hr, hcode'⟩ | hok := exec_code_cases ht
    · rwa [ErrorKind.code_injective (hcode.symm.trans hcode')]
    · exact absurd (hcode.symm.trans hok) e.code_ne_ok
  · obtain ⟨u, hu, hcode⟩ := hr.exec_code
    obtain rfl : t = u := Host.Outcome.next.inj (ht.symm.trans hu)
    exact hcode

/-- Settles O32: CONFIG's causes are the counts out of range. -/
theorem configExactly : Obligations.ConfigExactly := by
  intro i s
  obtain ⟨t, ht, hcode⟩ := exec_code_iff i s .config
  refine ⟨t, ht, hcode.trans ⟨fun hr => ?_, ?_⟩⟩
  · cases hr with
    | unstuffConfig hw => exact .inl ⟨_, rfl, hw⟩
    | appendConfig hn => exact .inr (.inl ⟨_, rfl, hn⟩)
    | readConfig hn => exact .inr (.inr ⟨_, _, _, rfl, hn⟩)
  · rintro (⟨w, rfl, hw⟩ | ⟨n, rfl, hn⟩ | ⟨b, o, n, rfl, hn⟩)
    · exact .unstuffConfig hw
    · exact .appendConfig hn
    · exact .readConfig hn

/-- Settles O33: RANGE's causes are the bounds passed with a count in its range. -/
theorem rangeExactly : Obligations.RangeExactly := by
  intro i s
  obtain ⟨t, ht, hcode⟩ := exec_code_iff i s .range
  refine ⟨t, ht, hcode.trans ⟨fun hr => ?_, ?_⟩⟩
  · cases hr with
    | wrapRange h => exact .inl ⟨rfl, h⟩
    | appendRange hn hroom => exact .inr (.inl ⟨_, rfl, hn, hroom⟩)
    | readRange hn hlen => exact .inr (.inr (.inl ⟨_, _, _, rfl, hn, hlen⟩))
    | bitatRange hk => exact .inr (.inr (.inr ⟨_, rfl, hk⟩))
  · rintro (⟨rfl, h⟩ | ⟨n, rfl, hn, hroom⟩ | ⟨b, o, n, rfl, hn, hlen⟩ | ⟨b, rfl, hk⟩)
    · exact .wrapRange h
    · exact .appendRange hn hroom
    · exact .readRange hn hlen
    · exact .bitatRange hk

/-- Settles O34: RESERVED_WORD's one cause is a reserved word of the message region. -/
theorem reservedWordExactly : Obligations.ReservedWordExactly := by
  intro i s
  obtain ⟨t, ht, hcode⟩ := exec_code_iff i s .reservedWord
  refine ⟨t, ht, hcode.trans ⟨fun hr => ?_, ?_⟩⟩
  · cases hr with
    | unstuffReserved hw hmax h =>
      obtain ⟨k, hk, hm, hvalue⟩ := h
      exact ⟨_, k, rfl, hw, hmax, hk, hm, hvalue⟩
  · rintro ⟨w, k, rfl, hw, hmax, hk, hm, hvalue⟩
    exact .unstuffReserved hw hmax ⟨k, hk, hm, hvalue⟩

/-! ## ILLEGAL (R186) -/

/-- A word that passes no row's mask and match raises ILLEGAL and reads no operand. -/
theorem runCommand_of_no_match {c : Word} (h : ∀ op, c &&& opMask op ≠ opMatch op) (s : State) :
    runCommand c s = .next { s with result := 0#32, code := 4#3, err := true } := by
  cases hdec : decode c with
  | ok i => exact absurd (match_of_decode hdec) (h _)
  | error e => exact runCommand_of_error hdec s

/-- An APPEND word with MODE = 1 passes no row: its OP is APPEND's alone, whose row has MODE = 0 (R111). -/
theorem no_match_of_append_signExtend {c : Word} (hop : c.toNat % 16 = 3) (hmode : c.getLsbD 5 = true) (op : Op) :
    c &&& opMask op ≠ opMatch op := by
  intro hmatch
  have hnibble : fieldOp c = 3#4 := BitVec.eq_of_toNat_eq ((fieldOp_toNat c).trans hop)
  have happend : some Op.append = some op := by
    rw [← fieldOp_of_match hmatch, hnibble]
    rfl
  obtain rfl := Option.some.inj happend
  have hbit : (c &&& opMask .append).getLsbD 5 = (opMatch .append).getLsbD 5 := congrArg (·.getLsbD 5) hmatch
  rw [BitVec.getLsbD_and, hmode] at hbit
  exact absurd hbit (by decide)

/-- Settles O8: neither form passes a row, and the access that wrote the word is answered. -/
theorem wordOutsideTheTableRaisesIllegal : Obligations.WordOutsideTheTableRaisesIllegal := by
  intro s c rest hin hout
  have hno : ∀ op, c &&& opMask op ≠ opMatch op := by
    obtain ⟨hwrap, hempty, happend, hread, hlength, hbitat, hunstuff⟩ | ⟨hop, hmode⟩ := hout
    · intro op
      cases op with
      | wrap => exact fun h => hwrap (decode_wrap_iff_eq.1 (decode_wrap_iff.2 h))
      | empty => exact fun h => hempty (decode_empty_iff_eq.1 (decode_empty_iff.2 h))
      | append => exact happend
      | read => exact hread
      | length => exact hlength
      | bitat => exact hbitat
      | unstuff => exact hunstuff
    · exact no_match_of_append_signExtend hop hmode
  calc step s = answer .written (runCommand c (s.setInputs rest)) := step_writeReg hin (by decide) (by decide)
    _ = _ := congrArg (answer .written) (runCommand_of_no_match hno _)

/-! ## Between accesses (R200, R220) -/

/-- Settles O10, by the idle case of the step. -/
theorem idleMachineKeepsItsState : Obligations.IdleMachineKeepsItsState := fun _ => step_idle

end Sys2Proof.Machine
end

section
/-!
PROOFS. The reset input (R210, R211) and the commands right after it (R212); then that every event is taken and every
host access is answered exactly once (R219 to R221).
-/

namespace Sys2Proof.Machine

open Sys2Proof

/-! ## Reset (R210 to R212) -/

/-- Settles O56, by the reset case of the step. -/
theorem resetInputPutsTheResetState : Obligations.ResetInputPutsTheResetState := fun _ _ _ h => step_event h

/-- Where no view is live and OUT is empty, either buffer has length 0. -/
theorem State.len_of_empty {s : State} (hin : s.inLen = 0) (hout : s.out = []) (b : Buf) : s.len b = 0 := by
  cases b with
  | input => exact hin
  | output => exact congrArg List.length hout

/-- Settles O57: each command's own rule, where both lengths are 0. -/
theorem rightAfterResetCommandsAreUsable : Obligations.RightAfterResetCommandsAreUsable := by
  rintro a0 a1 s rfl
  have hlen := State.len_of_empty (s := { State.reset with arg0 := a0, arg1 := a1 }) rfl rfl
  obtain ⟨-, hwrap, hwrapRange⟩ := wrapMakesTheView
  obtain ⟨-, hempty⟩ := emptyMakesOutEmpty
  obtain ⟨-, happend, -⟩ := appendAddsTheLowBits
  obtain ⟨-, -, -, hreadRange⟩ := readReturnsTheWeightedBits
  obtain ⟨-, hlength⟩ := lengthReturnsTheLogicalLength
  obtain ⟨-, -, -, hbitatRange⟩ := bitatReturnsOneBit
  obtain ⟨-, hshort⟩ := unstuffIgnoresTheTail
  refine ⟨fun hcount hfit => (hwrap _ hcount hfit).1, fun hpast => hwrapRange _ hpast, hempty _, fun b => ?_,
    fun b o n hpos hn => hreadRange _ b o n hn ?_, fun b => hbitatRange _ b ?_,
    fun w hw hmax => hshort _ w hw hmax ?_, fun n hn hroom => ?_⟩
  · cases b with
    | input => exact (hlength _).1
    | output => exact (hlength _).2
  · rw [hlen]
    omega
  · rw [hlen]
    exact Nat.zero_le _
  · exact Nat.zero_lt_of_lt hw
  · simpa [State.reset] using happend { State.reset with arg0 := a0, arg1 := a1 } n hn
      ((Nat.zero_add n).trans_le hroom)

/-! ## Every access is taken and answered once (R219 to R221) -/

/-- A command reaches neither the events to come nor the responses. -/
theorem runCommand_port {c : Word} {s t : State} (h : runCommand c s = .next t) :
    t.inputs = s.inputs ∧ t.responses = s.responses := by
  obtain hend | rfl := runCommand_ending h
  · rw [hend.frame]; exact ⟨rfl, rfl⟩
  · exact ⟨rfl, rfl⟩

/-- Whatever an access reaches, it takes no further event and records one response (R220). -/
theorem performAccess_port {a : HostAccess} {s t : State} (h : performAccess a s = .next t) :
    t.inputs = s.inputs ∧ ∃ r, t.responses = s.responses ++ [r] := by
  obtain ⟨u, r, rfl, hu⟩ := performAccess_cases h
  suffices u.inputs = s.inputs ∧ u.responses = s.responses by
    obtain ⟨hin, hresponses⟩ := this
    exact ⟨hin, r, congrArg (· ++ [r]) hresponses⟩
  obtain rfl | ⟨c, -, hc⟩ | ⟨v, -, rfl⟩ | ⟨v, -, rfl⟩ | ⟨v, -, rfl⟩ | ⟨o, v, k, -, -, hk, rfl⟩ := hu
  · exact ⟨rfl, rfl⟩
  · exact runCommand_port hc
  · exact ⟨rfl, rfl⟩
  · exact ⟨rfl, rfl⟩
  · exact ⟨rfl, rfl⟩
  · rw [State.writeWindow_backed hk]; exact ⟨rfl, rfl⟩

/-- Every event can be performed: no host action leaves the CWU stuck (R221). -/
theorem performEvent_next (e : HostEvent) (s : State) : ∃ t, performEvent e s = .next t := by
  cases e with
  | access a => exact performAccess_next a s
  | reset held => exact ⟨_, rfl⟩

/-- Every state has a next state (R219, R221). -/
theorem step_next (s : State) : ∃ t, step s = .next t := by
  cases hin : s.inputs with
  | nil => exact ⟨s, step_idle hin⟩
  | cons e es =>
    rw [step_event hin]
    exact performEvent_next e _

/-- Settles O9: every event can be performed, and an access records one response. -/
theorem everyAccessGetsOneResponse : Obligations.EveryAccessGetsOneResponse := by
  refine ⟨step_next, fun s a rest h => ?_⟩
  obtain ⟨t, ht⟩ := performAccess_next a (s.setInputs rest)
  obtain ⟨hin, r, hresponses⟩ := performAccess_port ht
  exact ⟨t, r, (step_event h).trans ht, hin, hresponses⟩

end Sys2Proof.Machine
end
